-- ==== Sys2Proof/Word.lean ====
section
/-! DEFINITION. The word types of the lc3go core: 16-bit words and addresses, 8-bit bytes of the console, and the
index of a general register. -/

namespace Sys2Proof

/-- A 16-bit word: a register, a memory cell, an instruction, an address (R7, R9). -/
abbrev Word := BitVec 16

/-- A byte of the console input or output (R16). -/
abbrev Byte := BitVec 8

/-- The index of a general register: a 3-bit field names exactly one of R0..R7 (R22; I19: "a model uses `Fin 8`"). -/
abbrev RegIdx := Fin 8

end Sys2Proof
end

