-- ==== Sys2Proof/Config.lean ====
section
/-! DEFINITION. The open parameters of R8 that the running core reads, as one record. State holds it, no step changes
it, and a statement about every state holds for every value of it (log entries 2 and 3). -/

namespace Sys2Proof

/-- The parameters the spec leaves open (R8, D4, D7, D8). -/
structure Config where
  /-- KBSR_ADDR, the address of the keyboard status word (R42, D4). -/
  kbsrAddr : Word
  /-- KBDR_ADDR, the address of the keyboard data word (R42, D4). -/
  kbdrAddr : Word
  /-- IN_PROMPT, the bytes the IN routine writes before it reads (R136, D7). -/
  inPrompt : List Byte
  /-- HALT_NOTICE, the bytes the HALT routine writes (R138, D8). -/
  haltNotice : List Byte
deriving DecidableEq, Repr

/-- "KBSR_ADDR != KBDR_ADDR" (R42). -/
abbrev Config.wf (c : Config) : Prop := c.kbsrAddr ≠ c.kbdrAddr

/-- The default device addresses of D4; the two texts, which no source gives (N7, N8), are empty.
DESIGN CHOICE, log entries 2 and 3: only `State.reset` uses it. -/
def Config.default : Config :=
  { kbsrAddr := 0xFE00, kbdrAddr := 0xFE02, inPrompt := [], haltNotice := [] }

/-- START_PC, "the architecture's fixed start address (`0x3000`)" (R7, R190). -/
def startPc : Word := 0x3000

end Sys2Proof
end

