-- ==== Sys2Proof/Machine/State.lean ====
section
/-! DEFINITION. The state of the machine as plain data (R34), the console environment of R171 to R173 as data beside
it, the reasons a step can stop, and the state at the start of a run. -/

namespace Sys2Proof.Machine

/-- COND: exactly one of three values, with no numeric encoding (R23, D6). -/
inductive Cond where
  | pos
  | zro
  | neg
deriving DecidableEq, Repr

/-- The run state (R28). -/
inductive RunState where
  | running
  | halted
deriving DecidableEq, Repr

/-- The kinds of fatal error (R161). -/
inductive FatalKind where
  /-- RTI, RES, or a TRAP vector outside 0x20..0x25. -/
  | illegalOpcode
  /-- A console read or write that fails inside a TRAP routine. -/
  | ioError
deriving DecidableEq, Repr

/-- What a fatal error records (R161): the opcode (IllegalOpcode only), the trap vector (TRAP only), the
instruction word and its address. -/
structure FatalInfo where
  op : Option (BitVec 4)
  vector : Option Byte
  instr : Word
  addr : Word
deriving DecidableEq, Repr

/-- How a HALTED core stopped (R29). -/
inductive StopStatus where
  | normal
  | fatal (kind : FatalKind) (info : FatalInfo)
deriving DecidableEq, Repr

/-- One cell of memory: a word address and the word there. The memory "has no byte address" (R41), so a cell is a word
(log entry 5). -/
abbrev Cell := Nat × Word

/-- The memory: the cells that hold another word than an unlisted one, in rising order of address. -/
abbrev Memory := List Cell

/-- What an unlisted cell holds: a cell "never written/loaded" reads as zero (R34, R45). -/
def Memory.unlisted : Word := 0x0000

/-- The canonical form: addresses strictly rising and inside the address space, no cell listed that holds the
unlisted word. -/
abbrev Memory.wf (m : Memory) : Prop :=
  m.Pairwise (fun c d => c.1 < d.1) ∧ ∀ c ∈ m, c.1 < 65536 ∧ c.2 ≠ Memory.unlisted

/-- The environment's answers to one kind of request, a free input of the step (R171 to R173): the coming answers in
order, and the answer to every request after those. Nothing constrains either, and between two steps of a run the
environment chooses anew (`State.EnvMay`; log entry 4). -/
structure Choices where
  coming : List Bool
  later : Bool
deriving DecidableEq, Repr

/-- What follows the listed bytes of the input stream (R171, R172); of a stream that has not ended, as the environment
has it in the step at hand (`Env.MayBecome`). -/
inductive InputTail where
  /-- The end of input: no byte follows, and a blocking read fails (D11). -/
  | ended
  /-- The stream stays open and no byte ever follows: a blocking read waits for ever (I10). -/
  | silent
  /-- The same byte follows without end. -/
  | endless (b : Byte)
deriving DecidableEq, Repr

/-- The console environment: the bytes the user produces and the core has not consumed, front first (R171), and the
environment's free choices. It belongs to the environment, not to the core (R33). -/
structure Env where
  input : List Byte
  tail : InputTail
  /-- At each coming poll: is a byte "available right now" (R171, D10)? -/
  pollReady : Choices
  /-- At each coming blocking read: does it fail (R172)? -/
  readFails : Choices
  /-- At each coming write: does it fail (R173, D16)? -/
  writeFails : Choices
deriving DecidableEq, Repr

/-- The machine's state: the rows of R34, then the model's own two fields, the open parameters (R8) and the
environment (R171). -/
structure State where
  /-- R0..R7 (R20, R21). -/
  regs : Vector Word 8
  /-- PC (R26). -/
  pc : Word
  /-- COND (R23). -/
  cond : Cond
  /-- The 65536 cells (R40), the KBSR and KBDR cells among them (R42). -/
  mem : Memory
  /-- The run state (R28). -/
  run : RunState
  /-- The stop status, none until HALTED (R29, R34). -/
  stop : Option StopStatus
  /-- The output log, first byte first (R30). -/
  out : List Byte
  /-- The open parameters (R8); no step changes them. -/
  cfg : Config
  /-- The console environment (R171 to R173). -/
  env : Env
deriving DecidableEq, Repr

/-- Why a step has no next state. -/
inductive Fault where
  /-- Raised by `step` on a HALTED core: "A HALTED core has no step" (R60). Safe: the hardware takes no step either. -/
  | halted
  /-- Raised by GETC, IN (and TRAP with their vectors) when the blocking read is never answered: "stuck while input is
  open" (I10). Safe: the hardware's step does not complete. -/
  | inputNeverArrives
  /-- Raised by PUTS, PUTSP (and TRAP with their vectors) when the walk meets no terminator for ever: "stuck: the TRAP
  step never completes" (I9). Safe: the hardware's step does not complete. -/
  | stringNeverEnds
deriving DecidableEq, Repr

/-- Why the model declines an instruction. -/
inductive Refusal where
  /-- Raised by an arm of `exec` whose instruction has no meaning yet; no arm is left that raises it. Safe. -/
  | notModelled (mnemonic : String)
deriving DecidableEq, Repr

/-- The environment of `State.reset`: no input, at its end; every write is accepted. DESIGN CHOICE, log entry 4. -/
def Env.reset : Env :=
  { input := [], tail := .ended, pollReady := ⟨[], false⟩, readFails := ⟨[], false⟩, writeFails := ⟨[], false⟩ }

/-- The machine at the start of a run with nothing loaded (R34, R190, R191). R0..R7 are unspecified there (D5); zero is
a DESIGN CHOICE, log entry 1. The parameters are the defaults, log entries 2 and 3, and the environment is log entry
4's. `startState` (Machine/Loader.lean) is the start of a run for every value of those. -/
def State.reset : State :=
  { regs := Vector.replicate 8 0, pc := startPc, cond := .zro, mem := [], run := .running, stop := none, out := []
    cfg := Config.default, env := Env.reset }

end Sys2Proof.Machine
end

