-- ==== Sys2Proof/Machine/Operands.lean ====
section
/-! DEFINITION. Operands: access to R0..R7, sign and zero extension (R11), the bytes of a word (R50), and the
addressing modes (R117). All address arithmetic is modulo 65536 (R10). -/

namespace Sys2Proof.Machine

/-- `x[r]` (R12). -/
def State.reg (s : State) (r : RegIdx) : Word := s.regs.get r

/-- `x[r] <- v` (R12): every register is writable (R21). -/
def State.setReg (s : State) (r : RegIdx) (v : Word) : State := { s with regs := s.regs.set r v }

/-- `PC <- target` (R12). -/
def State.setPc (s : State) (target : Word) : State := { s with pc := target }

/-- `COND <- c` (R12). -/
def State.setCond (s : State) (c : Cond) : State := { s with cond := c }

/-- `sext_N` of an N-bit field (R11). -/
def sext {n : Nat} (v : BitVec n) : Word := v.signExtend 16

/-- `zext_16` of a byte: the word 0x00bb (R11). -/
def zext16 (b : Byte) : Word := b.setWidth 16

/-- `w[7:0]`, the "low byte" (R50). -/
def lowByte (w : Word) : Byte := w.extractLsb' 0 8

/-- `w[15:8]`, the "high byte" (R50). -/
def highByte (w : Word) : Byte := w.extractLsb' 8 8

/-- PC-relative, `PC + sext_N(offset)` (R105, R117): with PC already incremented (R16). -/
def pcRelative {n : Nat} (off : BitVec n) (s : State) : Word := s.pc + sext off

/-- Base plus offset, `x[BaseR] + sext_6(offset6)` (R117). -/
def basePlusOffset (base : RegIdx) (off : BitVec 6) (s : State) : Word := s.reg base + sext off

end Sys2Proof.Machine
end

