-- ==== Sys2Proof/Machine/Flags.lean ====
section
/-! DEFINITION. The condition flag: `setcc` (R24) and the branch test (R101). -/

namespace Sys2Proof.Machine

/-- The value `setcc(v)` gives COND (R24). -/
def flagOf (v : Word) : Cond :=
  if v = 0x0000 then .zro else if v.getLsbD 15 then .neg else .pos

/-- `setcc(v)` (R24). -/
def setcc (v : Word) (s : State) : State := s.setCond (flagOf v)

/-- What a flag-setting instruction does with its result (R25): write the destination, then `setcc` of its new value. -/
def writeResult (dr : RegIdx) (v : Word) (s : State) : State := setcc v (s.setReg dr v)

/-- `brtest(n, z, p, c)` (R101). -/
def brtest (n z p : Bool) (c : Cond) : Bool :=
  (n && decide (c = .neg)) || (z && decide (c = .zro)) || (p && decide (c = .pos))

end Sys2Proof.Machine
end

