-- ==== Sys2Proof/Machine/Ops.lean ====
section
/-! DEFINITION. The shared operations: memory cells, the environment's primitives (R171 to R173), `MemRead` and
`MemWrite` (R43, R46), the fetch (R61), and the two ways a core stops, `raise Fatal` (R162) and `halt()` (R138). There
is no return from an exception: the core "has no exception or trap mechanism that transfers control to software" and
"no return-from-exception" (R160). -/

namespace Sys2Proof.Machine

/-! ### Memory cells -/

/-- The word in the cell at an address. -/
def Memory.read : Memory → Nat → Word
  | [], _ => Memory.unlisted
  | (k, v) :: m, a => if k = a then v else Memory.read m a

/-- A cell put at its place in the rising order. -/
def Memory.insert (c : Cell) : Memory → Memory
  | [] => [c]
  | d :: m => if c.1 < d.1 then c :: d :: m else d :: Memory.insert c m

/-- The cell at an address holds a new word: the old cell goes, and the new one is listed unless it holds what an
unlisted cell does. -/
def Memory.write (m : Memory) (a : Nat) (v : Word) : Memory :=
  let rest := m.filter (fun c => c.1 != a)
  if v = Memory.unlisted then rest else Memory.insert (a, v) rest

/-- `Store[a]`: the stored content of a cell, without side effect (R13). -/
def State.store (s : State) (a : Word) : Word := s.mem.read a.toNat

/-- `Store[a] <- v` (R13). -/
def State.setStore (s : State) (a v : Word) : State := { s with mem := s.mem.write a.toNat v }

/-! ### The environment -/

/-- The environment's answer to the next request of a kind. -/
def Choices.answer (c : Choices) : Bool := c.coming.headD c.later

/-- The answers after the next one. -/
def Choices.advance (c : Choices) : Choices := { c with coming := c.coming.tail }

/-- The front byte of the input stream, if there is one, and the stream behind it (R171). -/
def Env.takeByte (e : Env) : Option Byte × Env :=
  match e.input, e.tail with
  | b :: rest, _ => (some b, { e with input := rest })
  | [], .endless b => (some b, e)
  | [], .silent => (none, e)
  | [], .ended => (none, e)

/-- `KbdPoll()` (R171): if the environment so chooses, the front byte, consumed; else none, and nothing consumed. -/
def kbdPoll (s : State) : Option Byte × State :=
  let e := { s.env with pollReady := s.env.pollReady.advance }
  if s.env.pollReady.answer then
    let r := e.takeByte
    (r.1, { s with env := r.2 })
  else (none, { s with env := e })

/-- The outcomes of `KbdGet()` (R172). -/
inductive KbdAnswer where
  | byte (b : Byte)
  | failed
  | neverAnswered
deriving DecidableEq, Repr

/-- `KbdGet()` (R172): the front byte, consumed; or a failure, at the environment's choice or at the end of input
(D11); or no answer for ever, where the stream is open and no byte follows. -/
def kbdGet (s : State) : KbdAnswer × State :=
  let e := { s.env with readFails := s.env.readFails.advance }
  if s.env.readFails.answer then (.failed, { s with env := e })
  else
    match e.takeByte with
    | (some b, e') => (.byte b, { s with env := e' })
    | (none, e') => (if e.tail = .ended then .failed else .neverAnswered, { s with env := e' })

/-- `ConOut(b)` (R173): append the byte to `out`, or fail at the environment's choice. True: the byte was accepted. -/
def conOut (b : Byte) (s : State) : Bool × State :=
  let e := { s.env with writeFails := s.env.writeFails.advance }
  if s.env.writeFails.answer then (false, { s with env := e })
  else (true, { s with env := e, out := s.out ++ [b] })

/-- `ConOut*(s)` (R173): each byte in order, "stopping at the first failure". -/
def conOutAll : List Byte → State → Bool × State
  | [], s => (true, s)
  | b :: bs, s =>
    match conOut b s with
    | (true, s') => conOutAll bs s'
    | (false, s') => (false, s')

/-! ### Memory accesses and the fetch -/

/-- KBSR_READY (R7). -/
def kbsrReady : Word := 0x8000

/-- The side effect of a read of KBSR (R43, R44): poll, and record the answer in the two device cells. -/
def pollKeyboard (s : State) : State :=
  match kbdPoll s with
  | (some b, s') => (s'.setStore s'.cfg.kbsrAddr kbsrReady).setStore s'.cfg.kbdrAddr (zext16 b)
  | (none, s') => s'.setStore s'.cfg.kbsrAddr 0x0000

/-- `MemRead(addr)` (R43): the word read, and the state after the read. Every read path goes through it (R48). -/
def memRead (a : Word) (s : State) : Word × State :=
  let s' := if a = s.cfg.kbsrAddr then pollKeyboard s else s
  (s'.store a, s')

/-- `MemWrite(addr, v)` (R46): a plain store at every address. -/
def memWrite (a v : Word) (s : State) : State := s.setStore a v

/-- The fetch (R61): read the word at PC, then increment PC. -/
def fetch (s : State) : Word × State :=
  let r := memRead s.pc s
  (r.1, r.2.setPc (s.pc + 1))

/-! ### Stopping -/

/-- `raise Fatal(kind, info)` (R162): HALTED, with the stop status recorded; nothing else changes (R165). -/
def raiseFatal (kind : FatalKind) (info : FatalInfo) (s : State) : State :=
  { s with run := .halted, stop := some (.fatal kind info) }

/-- `raise Fatal(IllegalOpcode, …)` for an instruction word, after its fetch: `addr` is PC - 1 (R150 to R152, R161). -/
def raiseIllegalOpcode (instr : Word) (vector : Option Byte) (s : State) : State :=
  raiseFatal .illegalOpcode { op := some (instr.extractLsb' 12 4), vector := vector, instr := instr, addr := s.pc - 1 } s

/-- `raise Fatal(IOError, …)` inside the TRAP routine of an instruction word, after its fetch (R132). -/
def raiseIOError (instr : Word) (s : State) : State :=
  raiseFatal .ioError { op := none, vector := some (lowByte instr), instr := instr, addr := s.pc - 1 } s

/-- `halt()` (R138). -/
def haltNormally (s : State) : State := { s with run := .halted, stop := some .normal }

/-- The process exit code of a stop status (R166). -/
def StopStatus.exitCode : StopStatus → Nat
  | .normal => 0
  | .fatal _ _ => 1

/-- This spec's number for a kind of fatal error (R161, D14). -/
def FatalKind.code : FatalKind → Nat
  | .illegalOpcode => 1
  | .ioError => 2

end Sys2Proof.Machine
end

