-- ==== Sys2Proof/Machine/Control.lean ====
section
/-! DEFINITION. Control transfer: BR, JMP, RET, JSR, JSRR (R100 to R105). PC already holds the instruction's address
plus 1 (R16). -/

namespace Sys2Proof.Machine

/-- `pc <- x[BaseR]` (R102, R104). -/
def jumpToReg (base : RegIdx) (s : State) : State := s.setPc (s.reg base)

/-- `x[7] <- PC`: the link, written "unconditionally first" (R103, R104). -/
def linkR7 (s : State) : State := s.setReg 7 s.pc

/-- BR (R100): the target if the test of R101 holds, else the incremented PC. -/
def execBr (n z p : Bool) (off : BitVec 9) (s : State) : Host.Outcome State Fault Refusal :=
  .next (if brtest n z p s.cond then s.setPc (pcRelative off s) else s)

/-- JMP (R102). -/
def execJmp (base : RegIdx) (s : State) : Host.Outcome State Fault Refusal := .next (jumpToReg base s)

/-- RET, JMP with BaseR = 7 (R102). -/
def execRet (s : State) : Host.Outcome State Fault Refusal := .next (jumpToReg 7 s)

/-- JSR (R103): the target uses PC, which the write of R7 does not change. -/
def execJsr (off : BitVec 11) (s : State) : Host.Outcome State Fault Refusal :=
  let s' := linkR7 s
  .next (s'.setPc (pcRelative off s'))

/-- JSRR (R104): BaseR is read after R7 is written, so JSRR R7 continues at the next instruction (I12). -/
def execJsrr (base : RegIdx) (s : State) : Host.Outcome State Fault Refusal := .next (jumpToReg base (linkR7 s))

end Sys2Proof.Machine
end

