-- ==== Sys2Proof/Machine/LoadStore.lean ====
section
/-! DEFINITION. Loads, stores and LEA (R110 to R117). Each `MemRead` polls where its address is KBSR_ADDR (R48); the
accesses of one instruction happen in the order of its rule (R55). -/

namespace Sys2Proof.Machine

/-- `let v = MemRead(ea); x[DR] <- v; setcc(v)` (R110 to R112). -/
def loadInto (dr : RegIdx) (ea : Word) (s : State) : State :=
  let r := memRead ea s
  writeResult dr r.1 r.2

/-- LD (R110). -/
def execLd (dr : RegIdx) (off : BitVec 9) (s : State) : Host.Outcome State Fault Refusal :=
  .next (loadInto dr (pcRelative off s) s)

/-- LDI (R111): the pointer is read first, then the operand. -/
def execLdi (dr : RegIdx) (off : BitVec 9) (s : State) : Host.Outcome State Fault Refusal :=
  let ptr := memRead (pcRelative off s) s
  .next (loadInto dr ptr.1 ptr.2)

/-- LDR (R112): BaseR is read before DR is written. -/
def execLdr (dr base : RegIdx) (off : BitVec 6) (s : State) : Host.Outcome State Fault Refusal :=
  .next (loadInto dr (basePlusOffset base off s) s)

/-- LEA (R113): an address, no memory access; flag-setting. -/
def execLea (dr : RegIdx) (off : BitVec 9) (s : State) : Host.Outcome State Fault Refusal :=
  .next (writeResult dr (pcRelative off s) s)

/-- ST (R114). -/
def execSt (sr : RegIdx) (off : BitVec 9) (s : State) : Host.Outcome State Fault Refusal :=
  .next (memWrite (pcRelative off s) (s.reg sr) s)

/-- STI (R115): the pointer is read first and may poll; the store does not. -/
def execSti (sr : RegIdx) (off : BitVec 9) (s : State) : Host.Outcome State Fault Refusal :=
  let ptr := memRead (pcRelative off s) s
  .next (memWrite ptr.1 (ptr.2.reg sr) ptr.2)

/-- STR (R116). -/
def execStr (sr base : RegIdx) (off : BitVec 6) (s : State) : Host.Outcome State Fault Refusal :=
  .next (memWrite (basePlusOffset base off s) (s.reg sr) s)

end Sys2Proof.Machine
end

