-- ==== Sys2Proof/Syntax.lean ====
section
/-! DEFINITION. The instructions of the lc3go core: one constructor for each row of spec/opcode_table.json.
A constructor holds every bit of its word that the row does not fix, the ignored bits of R71 among them: no bit of a
word is lost by decoding, and the `instr` that a fatal stop records (R161) is the word itself. -/

namespace Sys2Proof

/-- An instruction. Fields named `unused…` are the bits R71 lists as ignored. -/
inductive Instr where
  /-- ADD DR, SR1, SR2 (R90); unused: bits 4:3. -/
  | add (dr sr1 : RegIdx) (unused : BitVec 2) (sr2 : RegIdx)
  /-- ADD DR, SR1, #imm5 (R91). -/
  | addi (dr sr1 : RegIdx) (imm5 : BitVec 5)
  /-- AND DR, SR1, SR2 (R92); unused: bits 4:3. -/
  | and (dr sr1 : RegIdx) (unused : BitVec 2) (sr2 : RegIdx)
  /-- AND DR, SR1, #imm5 (R93). -/
  | andi (dr sr1 : RegIdx) (imm5 : BitVec 5)
  /-- NOT DR, SR (R94); unused: bits 5:0. -/
  | not (dr sr : RegIdx) (unused : BitVec 6)
  /-- BR with its n, z, p bits and PCoffset9 (R100). -/
  | br (n z p : Bool) (off : BitVec 9)
  /-- JMP BaseR (R102); unused: bits 11:9 and 5:0. The words of RET's row are `ret`. -/
  | jmp (unusedHi : BitVec 3) (base : RegIdx) (unusedLo : BitVec 6)
  /-- RET: the table's row 0xC1C0 under mask 0xFFC0, JMP with BaseR = 7 and bits 11:9 zero (R102); unused: bits 5:0. -/
  | ret (unused : BitVec 6)
  /-- JSR with PCoffset11 (R103). -/
  | jsr (off : BitVec 11)
  /-- JSRR BaseR (R104); unused: bits 10:9 and 5:0. -/
  | jsrr (unusedHi : BitVec 2) (base : RegIdx) (unusedLo : BitVec 6)
  /-- LD DR, PCoffset9 (R110). -/
  | ld (dr : RegIdx) (off : BitVec 9)
  /-- LDI DR, PCoffset9 (R111). -/
  | ldi (dr : RegIdx) (off : BitVec 9)
  /-- LDR DR, BaseR, #offset6 (R112). -/
  | ldr (dr base : RegIdx) (off : BitVec 6)
  /-- LEA DR, PCoffset9 (R113). -/
  | lea (dr : RegIdx) (off : BitVec 9)
  /-- ST SR, PCoffset9 (R114). -/
  | st (sr : RegIdx) (off : BitVec 9)
  /-- STI SR, PCoffset9 (R115). -/
  | sti (sr : RegIdx) (off : BitVec 9)
  /-- STR SR, BaseR, #offset6 (R116). -/
  | str (sr base : RegIdx) (off : BitVec 6)
  /-- TRAP trapvect8 in the general form of R130, for the words whose ignored bits 11:8 are not zero; where they are
  zero the word is one of the seven rows below (log entry 7). -/
  | trap (unused : BitVec 4) (vec : Byte)
  /-- TRAP x20, canonical word 0xF020 (R133). -/
  | getc
  /-- TRAP x21, canonical word 0xF021 (R134). -/
  | out
  /-- TRAP x22, canonical word 0xF022 (R135). -/
  | puts
  /-- TRAP x23, canonical word 0xF023 (R136). -/
  | inp
  /-- TRAP x24, canonical word 0xF024 (R137). -/
  | putsp
  /-- TRAP x25, canonical word 0xF025 (R138). -/
  | halt
  /-- TRAP with a vector outside 0x20..0x25 (R152), bits 11:8 zero. -/
  | trapIllegal (vec : Byte)
  /-- RTI, illegal (R150); bits 11:0 of any value. -/
  | rti (unused : BitVec 12)
  /-- RES, illegal (R151); bits 11:0 of any value. -/
  | res (unused : BitVec 12)
deriving DecidableEq, Repr

end Sys2Proof
end

