-- ==== Sys2Proof/WellFormed.lean ====
section
/-! DEFINITION. Which terms of `Instr` are the reading of a word. Three rows of the opcode table overlap others (RET's
words are JMP's, and TRAP's are those of the named routines and of TRAP-illegal); the checks below say which
constructor stands for a word that two rows match, so that a word has one meaning (R73). Every other term is
well formed: its field types already admit exactly the values of the encoding's fields. -/

namespace Sys2Proof

/-- The trap vectors of R7: GETC 0x20, OUT 0x21, PUTS 0x22, IN 0x23, PUTSP 0x24, HALT 0x25. -/
def recognisedVector (v : Byte) : Bool := decide (0x20#8 ≤ v) && decide (v ≤ 0x25#8)

/-- An instruction term that some word decodes to. -/
def Instr.wf : Instr → Bool
  | .add _ _ _ _ => true
  | .addi _ _ _ => true
  | .and _ _ _ _ => true
  | .andi _ _ _ => true
  | .not _ _ _ => true
  | .br _ _ _ _ => true
  | .jmp hi base _ => !(hi == 0#3 && base == 7)
  | .ret _ => true
  | .jsr _ => true
  | .jsrr _ _ _ => true
  | .ld _ _ => true
  | .ldi _ _ => true
  | .ldr _ _ _ => true
  | .lea _ _ => true
  | .st _ _ => true
  | .sti _ _ => true
  | .str _ _ _ => true
  | .trap x _ => !(x == 0#4)
  | .getc => true
  | .out => true
  | .puts => true
  | .inp => true
  | .putsp => true
  | .halt => true
  | .trapIllegal v => !recognisedVector v
  | .rti _ => true
  | .res _ => true

end Sys2Proof
end

