-- ==== Sys2Proof/Decode.lean ====
section
/-! DEFINITION. The decoder, total on the 65536 instruction words (R73), and the encoder, both written from the layouts
of R66 and R67 and the opcode numbers of R70. Every word has a reading, the illegal ones too (R72: they decode to
`rti`, `res` and `trapIllegal`, or to `trap` with an unrecognised vector); what the decoder rejects is a number that is
no instruction word (`decodeTableWord`). -/

namespace Sys2Proof

/-- `bits[lo+2:lo]` as a register index (R66). -/
def regField (w : Word) (lo : Nat) : RegIdx := (w.extractLsb' lo 3).toFin

/-- A register index as its 3-bit field. -/
def regBits (r : RegIdx) : BitVec 3 := BitVec.ofFin r

/-- The words of opcode 0b1111 (R130, R133 to R138, R152). -/
def decodeTrap (w : Word) : Instr :=
  let x := w.extractLsb' 8 4
  let v := w.extractLsb' 0 8
  if x = 0#4 then
    match v.toNat with
    | 0x20 => .getc
    | 0x21 => .out
    | 0x22 => .puts
    | 0x23 => .inp
    | 0x24 => .putsp
    | 0x25 => .halt
    | _ => .trapIllegal v
  else .trap x v

/-- The instruction a word stands for: the opcode map of R70 over the field positions of R66. -/
def decode (w : Word) : Instr :=
  match (w.extractLsb' 12 4).toNat with
  | 0 => .br (w.getLsbD 11) (w.getLsbD 10) (w.getLsbD 9) (w.extractLsb' 0 9)
  | 1 => if w.getLsbD 5 then .addi (regField w 9) (regField w 6) (w.extractLsb' 0 5)
         else .add (regField w 9) (regField w 6) (w.extractLsb' 3 2) (regField w 0)
  | 2 => .ld (regField w 9) (w.extractLsb' 0 9)
  | 3 => .st (regField w 9) (w.extractLsb' 0 9)
  | 4 => if w.getLsbD 11 then .jsr (w.extractLsb' 0 11)
         else .jsrr (w.extractLsb' 9 2) (regField w 6) (w.extractLsb' 0 6)
  | 5 => if w.getLsbD 5 then .andi (regField w 9) (regField w 6) (w.extractLsb' 0 5)
         else .and (regField w 9) (regField w 6) (w.extractLsb' 3 2) (regField w 0)
  | 6 => .ldr (regField w 9) (regField w 6) (w.extractLsb' 0 6)
  | 7 => .str (regField w 9) (regField w 6) (w.extractLsb' 0 6)
  | 8 => .rti (w.extractLsb' 0 12)
  | 9 => .not (regField w 9) (regField w 6) (w.extractLsb' 0 6)
  | 10 => .ldi (regField w 9) (w.extractLsb' 0 9)
  | 11 => .sti (regField w 9) (w.extractLsb' 0 9)
  | 12 => if w.extractLsb' 9 3 = 0#3 ∧ regField w 6 = 7 then .ret (w.extractLsb' 0 6)
          else .jmp (w.extractLsb' 9 3) (regField w 6) (w.extractLsb' 0 6)
  | 13 => .res (w.extractLsb' 0 12)
  | 14 => .lea (regField w 9) (w.extractLsb' 0 9)
  | _ => decodeTrap w

/-- The word of an instruction: each row of R67, most significant field first. -/
def encode : Instr → Word
  | .add dr sr1 x sr2 => 0b0001#4 ++ regBits dr ++ regBits sr1 ++ 0#1 ++ x ++ regBits sr2
  | .addi dr sr1 imm => 0b0001#4 ++ regBits dr ++ regBits sr1 ++ 1#1 ++ imm
  | .and dr sr1 x sr2 => 0b0101#4 ++ regBits dr ++ regBits sr1 ++ 0#1 ++ x ++ regBits sr2
  | .andi dr sr1 imm => 0b0101#4 ++ regBits dr ++ regBits sr1 ++ 1#1 ++ imm
  | .not dr sr x => 0b1001#4 ++ regBits dr ++ regBits sr ++ x
  | .br n z p off => 0b0000#4 ++ BitVec.ofBool n ++ BitVec.ofBool z ++ BitVec.ofBool p ++ off
  | .jmp hi base lo => 0b1100#4 ++ hi ++ regBits base ++ lo
  | .ret lo => 0b1100#4 ++ 0#3 ++ 7#3 ++ lo
  | .jsr off => 0b0100#4 ++ 1#1 ++ off
  | .jsrr hi base lo => 0b0100#4 ++ 0#1 ++ hi ++ regBits base ++ lo
  | .ld dr off => 0b0010#4 ++ regBits dr ++ off
  | .ldi dr off => 0b1010#4 ++ regBits dr ++ off
  | .ldr dr base off => 0b0110#4 ++ regBits dr ++ regBits base ++ off
  | .lea dr off => 0b1110#4 ++ regBits dr ++ off
  | .st sr off => 0b0011#4 ++ regBits sr ++ off
  | .sti sr off => 0b1011#4 ++ regBits sr ++ off
  | .str sr base off => 0b0111#4 ++ regBits sr ++ regBits base ++ off
  | .trap x v => 0b1111#4 ++ x ++ v
  | .getc => 0xF020
  | .out => 0xF021
  | .puts => 0xF022
  | .inp => 0xF023
  | .putsp => 0xF024
  | .halt => 0xF025
  | .trapIllegal v => 0b1111#4 ++ 0#4 ++ v
  | .rti x => 0b1000#4 ++ x
  | .res x => 0b1101#4 ++ x

/-- The instruction the decoder reads from an instruction word given as a number, bit 0 its least significant bit
(R9). "Every instruction is exactly one 16-bit word" (R64): a number of more bits is no instruction word. -/
def decodeTableWord (nbits w : Nat) : Option Instr :=
  if nbits ≤ 16 ∧ w < 2 ^ nbits then some (decode (BitVec.ofNat 16 w)) else none

end Sys2Proof
end

