-- ==== Sys2Proof/Machine/Reserved.lean ====
section
/-! DEFINITION. The illegal opcodes RTI and RES (R150, R151): a fatal stop, whatever bits 11:0 hold. -/

namespace Sys2Proof.Machine

/-- RTI (R150). -/
def execRti (unused : BitVec 12) (s : State) : Host.Outcome State Fault Refusal :=
  .next (raiseIllegalOpcode (encode (.rti unused)) none s)

/-- RES (R151). -/
def execRes (unused : BitVec 12) (s : State) : Host.Outcome State Fault Refusal :=
  .next (raiseIllegalOpcode (encode (.res unused)) none s)

end Sys2Proof.Machine
end

