-- ==== Sys2Proof/Machine/Trap.lean ====
section
/-! DEFINITION. TRAP and the built-in routines (R130 to R138). A routine takes the instruction word, which a failing
console call records (R132), and runs to completion inside the TRAP's own step (R131). -/

namespace Sys2Proof.Machine

/-- The end of a routine whose last console call answered `r`: go on, or stop with `Fatal(IOError)` (R132). -/
def orIOError (instr : Word) (r : Bool × State) : State := if r.1 then r.2 else raiseIOError instr r.2

/-- GETC (R133). -/
def routineGetc (instr : Word) (s : State) : Host.Outcome State Fault Refusal :=
  match kbdGet s with
  | (.byte b, s') => .next (writeResult 0 (zext16 b) s')
  | (.failed, s') => .next (raiseIOError instr s')
  | (.neverAnswered, _) => .fault .inputNeverArrives

/-- OUT (R134). -/
def routineOut (instr : Word) (s : State) : Host.Outcome State Fault Refusal :=
  .next (orIOError instr (conOut (lowByte (s.reg 0)) s))

/-- How a walk along a string stands after some number of words. -/
inductive Walk where
  /-- It met its terminator. -/
  | finished (s : State)
  /-- A write failed. -/
  | failed (s : State)
  /-- Neither, so far. -/
  | unfinished
deriving DecidableEq, Repr

/-- At most `n` words of a string from address `a`: read the word with `MemRead`, stop where it ends the string, else
write its bytes and go on at the next address, modulo 65536 (R135, R137, D12). -/
def stringWalk (ends : Word → Bool) (bytes : Word → List Byte) : Nat → Word → State → Walk
  | 0, _, _ => .unfinished
  | n + 1, a, s =>
    let r := memRead a s
    if ends r.1 then .finished r.2
    else
      match conOutAll (bytes r.1) r.2 with
      | (true, s') => stringWalk ends bytes n (a + 1) s'
      | (false, s') => .failed s'

/-- PUTS: "the test is on the whole word" (R135). -/
def putsEnds (w : Word) : Bool := w == 0x0000

/-- PUTS writes a word's low byte (R135). -/
def putsBytes (w : Word) : List Byte := [lowByte w]

/-- PUTSP: "stop at a word whose low byte is zero" (R137). -/
def putspEnds (w : Word) : Bool := lowByte w == 0x00

/-- The bytes PUTSP writes for a word whose low byte is not zero: "low byte first, then high byte if nonzero" (R137). -/
def putspBytes (w : Word) : List Byte :=
  if highByte w = 0x00 then [lowByte w] else [lowByte w, highByte w]

/-- So many words that a walk which has neither met its terminator nor failed by then never will. Each time round the
65536 cells (a lap) polls once, and a poll that finds no byte ends the walk, so the listed answers and bytes of the
environment last at most as many laps as there are of them; the poll of one more lap leaves in KBDR the byte every later
poll brings; and where the lap after that poll meets no end, no later lap does. DEDUCED, log entry 6; proved in Laws/Walk.lean
(`stringWalk_bound`). -/
def walkBound (s : State) : Nat :=
  65536 * (s.env.input.length + s.env.pollReady.coming.length + s.env.writeFails.coming.length + 2)

/-- The end of a string routine (R132, I9). -/
def endOfWalk (instr : Word) : Walk → Host.Outcome State Fault Refusal
  | .finished s => .next s
  | .failed s => .next (raiseIOError instr s)
  | .unfinished => .fault .stringNeverEnds

/-- PUTS (R135). -/
def routinePuts (instr : Word) (s : State) : Host.Outcome State Fault Refusal :=
  endOfWalk instr (stringWalk putsEnds putsBytes (walkBound s) (s.reg 0) s)

/-- IN (R136): prompt, read, echo, then the register. -/
def routineIn (instr : Word) (s : State) : Host.Outcome State Fault Refusal :=
  match conOutAll s.cfg.inPrompt s with
  | (false, s1) => .next (raiseIOError instr s1)
  | (true, s1) =>
    match kbdGet s1 with
    | (.failed, s2) => .next (raiseIOError instr s2)
    | (.neverAnswered, _) => .fault .inputNeverArrives
    | (.byte b, s2) =>
      match conOut b s2 with
      | (false, s3) => .next (raiseIOError instr s3)
      | (true, s3) => .next (writeResult 0 (zext16 b) s3)

/-- PUTSP (R137). -/
def routinePutsp (instr : Word) (s : State) : Host.Outcome State Fault Refusal :=
  endOfWalk instr (stringWalk putspEnds putspBytes (walkBound s) (s.reg 0) s)

/-- HALT (R138): the notice, then `halt()`; a failing notice is `Fatal(IOError)` (D16). -/
def routineHalt (instr : Word) (s : State) : Host.Outcome State Fault Refusal :=
  match conOutAll s.cfg.haltNotice s with
  | (true, s') => .next (haltNormally s')
  | (false, s') => .next (raiseIOError instr s')

/-- An unrecognised vector (R152). -/
def routineIllegal (instr : Word) (s : State) : Host.Outcome State Fault Refusal :=
  .next (raiseIllegalOpcode instr (some (lowByte instr)) s)

/-- The dispatch of R130 on the low byte of a TRAP word. -/
def trapDispatch (instr : Word) (s : State) : Host.Outcome State Fault Refusal :=
  match (lowByte instr).toNat with
  | 0x20 => routineGetc instr s
  | 0x21 => routineOut instr s
  | 0x22 => routinePuts instr s
  | 0x23 => routineIn instr s
  | 0x24 => routinePutsp instr s
  | 0x25 => routineHalt instr s
  | _ => routineIllegal instr s

/-- TRAP (R130); bits 11:8 do not change the routine (R71). -/
def execTrap (unused : BitVec 4) (vec : Byte) (s : State) : Host.Outcome State Fault Refusal :=
  trapDispatch (encode (.trap unused vec)) s

/-- GETC (R133). -/
def execGetc (s : State) : Host.Outcome State Fault Refusal := routineGetc (encode .getc) s

/-- OUT (R134). -/
def execOut (s : State) : Host.Outcome State Fault Refusal := routineOut (encode .out) s

/-- PUTS (R135). -/
def execPuts (s : State) : Host.Outcome State Fault Refusal := routinePuts (encode .puts) s

/-- IN (R136). -/
def execIn (s : State) : Host.Outcome State Fault Refusal := routineIn (encode .inp) s

/-- PUTSP (R137). -/
def execPutsp (s : State) : Host.Outcome State Fault Refusal := routinePutsp (encode .putsp) s

/-- HALT (R138). -/
def execHalt (s : State) : Host.Outcome State Fault Refusal := routineHalt (encode .halt) s

/-- TRAP with an unrecognised vector (R152). -/
def execTrapIllegal (vec : Byte) (s : State) : Host.Outcome State Fault Refusal :=
  routineIllegal (encode (.trapIllegal vec)) s

end Sys2Proof.Machine
end

