-- ==== Sys2Proof/Machine/Step.lean ====
section
/-! DEFINITION. One step (R60, R63): fetch, decode, execute. -/

namespace Sys2Proof.Machine

/-- One step of the core. "Only a RUNNING core takes steps" (R28). -/
def step (s : State) : Host.Outcome State Fault Refusal :=
  match s.run with
  | .halted => .fault .halted
  | .running => exec (decode (fetch s).1) (fetch s).2

/-- The state with an instruction word stored where the next step fetches, at PC (R61). A running core whose PC is not
KBSR_ADDR runs it in its next step; at KBSR_ADDR the fetch reads the polled status word instead (R48, I18). -/
def State.withFetchWord (s : State) (nbits w : Nat) : State := s.setStore s.pc (BitVec.ofNat 16 (w % 2 ^ nbits))

end Sys2Proof.Machine
end

