-- ==== Sys2Proof/Machine/Loader.lean ====
section
/-! DEFINITION. The start of a run with everything the spec leaves open as an argument (R190), and the image files that
reach memory before it (R193 to R196). -/

namespace Sys2Proof.Machine

/-- An image: an origin and the words placed from it up (R193). -/
structure Image where
  origin : Word
  words : List Word
deriving DecidableEq, Repr

/-- The words of an image, placed from address `a` up, "truncated if it would exceed the top of the address space"
(R193): a word whose address would be beyond 0xFFFF is dropped. -/
def loadWords : Nat → List Word → Memory → Memory
  | _, [], m => m
  | a, w :: ws, m => loadWords (a + 1) ws (if a ≤ 0xFFFF then m.write a w else m)

/-- One image into memory: plain writes, no poll (R193). -/
def loadImage (m : Memory) (i : Image) : Memory := loadWords i.origin.toNat i.words m

/-- The images in order, each fully before the next (R193). -/
def loadImages (is : List Image) : Memory := is.foldl loadImage []

/-- The start of a run (R34, R190): R0..R7 are INIT_GPR (D5), memory holds the images over zero. -/
def startState (cfg : Config) (initGpr : Vector Word 8) (images : List Image) (env : Env) : State :=
  { regs := initGpr, pc := startPc, cond := .zro, mem := loadImages images, run := .running, stop := none, out := []
    cfg := cfg, env := env }

/-- The big-endian words of an image file's bytes, none where the byte count is odd (R194, R195). -/
def fileWords : List Byte → Option (List Word)
  | [] => some []
  | [_] => none
  | hi :: lo :: rest => (fileWords rest).map ((hi ++ lo : Word) :: ·)

/-- An image file (R194); none is a load error: an odd byte count, or no origin word (R195, D17). -/
def parseImage (file : List Byte) : Option Image :=
  match fileWords file with
  | some (origin :: ws) => some ⟨origin, ws⟩
  | _ => none

/-- What a launch comes to (R196). -/
inductive Launch where
  /-- The run starts from this state. -/
  | run (s : State)
  /-- No image file: "no simulation starts". -/
  | usageError
  /-- An image file that is malformed or cannot be read: no run. -/
  | imageLoadError
deriving DecidableEq, Repr

/-- A launch with the given image files in argument order; none stands for a file that cannot be opened or read
(R195). -/
def launch (cfg : Config) (initGpr : Vector Word 8) (files : List (Option (List Byte))) (env : Env) : Launch :=
  match files with
  | [] => .usageError
  | _ :: _ =>
    match files.mapM (fun f => f.bind parseImage) with
    | some images => .run (startState cfg initGpr images env)
    | none => .imageLoadError

/-- The exit code of a launch that starts no run: 2 for a usage error (R166); LOAD_ERROR_EXIT, an open parameter, for a
load error (D19). -/
def Launch.exitCode (loadErrorExit : Nat) : Launch → Option Nat
  | .run _ => none
  | .usageError => some 2
  | .imageLoadError => some loadErrorExit

end Sys2Proof.Machine
end

