-- ==== Sys2Proof/Safety.lean ====
section
/-! DEFINITION. The terms statements are made in: the invariant, what an instruction may write, what it leaves
unchanged, how it stops, the string loops of R135 and R137 as relations, and the runs of R175 with its two premises. -/

namespace Sys2Proof

/-- The register an instruction writes with a result and sets COND from (R25). -/
def Instr.flagDest : Instr → Option RegIdx
  | .add dr _ _ _ => some dr
  | .addi dr _ _ => some dr
  | .and dr _ _ _ => some dr
  | .andi dr _ _ => some dr
  | .not dr _ _ => some dr
  | .ld dr _ => some dr
  | .ldi dr _ => some dr
  | .ldr dr _ _ => some dr
  | .lea dr _ => some dr
  | .trap _ v => if v = 0x20#8 ∨ v = 0x23#8 then some 0 else none
  | .getc => some 0
  | .inp => some 0
  | .br _ _ _ _ => none
  | .jmp _ _ _ => none
  | .ret _ => none
  | .jsr _ => none
  | .jsrr _ _ _ => none
  | .st _ _ => none
  | .sti _ _ => none
  | .str _ _ _ => none
  | .out => none
  | .puts => none
  | .putsp => none
  | .halt => none
  | .trapIllegal _ => none
  | .rti _ => none
  | .res _ => none

/-- JSR and JSRR, the only writers of the link register R7 (R105). -/
def Instr.isCall : Instr → Bool
  | .jsr _ => true
  | .jsrr _ _ _ => true
  | _ => false

/-- The one general register an instruction may write (R21). -/
def Instr.destination (i : Instr) : Option RegIdx := if i.isCall then some 7 else i.flagDest

/-- The instructions that overwrite PC (R26). -/
def Instr.transfersControl : Instr → Bool
  | .br _ _ _ _ => true
  | .jmp _ _ _ => true
  | .ret _ => true
  | .jsr _ => true
  | .jsrr _ _ _ => true
  | _ => false

/-- BR, the only reader of COND (R25). -/
def Instr.isBranch : Instr → Bool
  | .br _ _ _ _ => true
  | _ => false

/-- The trap vector of a TRAP instruction (R130). -/
def Instr.vector : Instr → Option Byte
  | .trap _ v => some v
  | .getc => some 0x20
  | .out => some 0x21
  | .puts => some 0x22
  | .inp => some 0x23
  | .putsp => some 0x24
  | .halt => some 0x25
  | .trapIllegal v => some v
  | _ => none

/-- The illegal encodings (R72). -/
def Instr.illegal : Instr → Bool
  | .trap _ v => !recognisedVector v
  | .trapIllegal _ => true
  | .rti _ => true
  | .res _ => true
  | _ => false

namespace Machine

/-- The address a store writes, and the word it writes there (R114 to R116); for STI the address is what the pointer
read answers. -/
def storeOf (s : State) : Instr → Option (Word × Word)
  | .st sr off => some (pcRelative off s, s.reg sr)
  | .sti sr off => some ((memRead (pcRelative off s) s).1, s.reg sr)
  | .str sr base off => some (basePlusOffset base off s, s.reg sr)
  | _ => none

/-- The invariant: memory in canonical form, two distinct device cells (R42), a stop status exactly when HALTED (R29,
R34). -/
abbrev State.Inv (s : State) : Prop := s.mem.wf ∧ s.cfg.wf ∧ (s.run = .halted ↔ s.stop.isSome = true)

/-- Every general register but those listed is unchanged. -/
def KeepsRegsBut (ds : List RegIdx) (s t : State) : Prop := ∀ r, r ∉ ds → t.reg r = s.reg r

/-- Every memory cell but those listed is unchanged. -/
def KeepsCellsBut (addrs : List Word) (s t : State) : Prop := ∀ a, a ∉ addrs → t.store a = s.store a

/-- The output log and the environment are unchanged. -/
def KeepsConsole (s t : State) : Prop := t.out = s.out ∧ t.env = s.env

/-- The run state, the stop status and the parameters are unchanged. -/
def KeepsRun (s t : State) : Prop := t.run = s.run ∧ t.stop = s.stop ∧ t.cfg = s.cfg

/-- A flag-setting result: the destination holds it, COND is its `setcc`, no other register changes. -/
def GetsResult (dr : RegIdx) (v : Word) (s t : State) : Prop :=
  t.reg dr = v ∧ t.cond = flagOf v ∧ KeepsRegsBut [dr] s t

/-- Memory, output log and environment are as a read of an address leaves them, and the run goes on. -/
def AfterRead (ea : Word) (s t : State) : Prop :=
  (∀ a, t.store a = (memRead ea s).2.store a) ∧ t.out = s.out ∧ t.env = (memRead ea s).2.env ∧ KeepsRun s t

/-- A fatal stop of an instruction after its fetch (R162, R165): HALTED with this status; registers, COND, PC and
parameters keep their values. Memory, `out` and the environment are for the statement to name. -/
def StopsFatally (kind : FatalKind) (info : FatalInfo) (s t : State) : Prop :=
  t.run = .halted ∧ t.stop = some (.fatal kind info) ∧ KeepsRegsBut [] s t ∧ t.cond = s.cond ∧ t.pc = s.pc ∧ t.cfg = s.cfg

/-- What an IOError of an instruction records (R132). -/
def ioErrorInfo (i : Instr) (s : State) : FatalInfo :=
  { op := none, vector := i.vector, instr := encode i, addr := s.pc - 1 }

/-- The next `n` console writes are all accepted. -/
def AcceptsWrites (n : Nat) (e : Env) : Prop := ∀ k < n, (Choices.advance^[k] e.writeFails).answer = false

/-- The environment after `n` console writes. -/
def Env.afterWrites (n : Nat) (e : Env) : Env := { e with writeFails := Choices.advance^[n] e.writeFails }

/-- The loop of R135 from an address: how it ends (true: at the terminator; false: by a failing write), and the state
it leaves. A loop that never ends is in no such relation. -/
inductive PutsLoop : Word → State → Bool → State → Prop where
  | terminator {a : Word} {s : State} (hz : (memRead a s).1 = 0x0000) : PutsLoop a s true (memRead a s).2
  | writeFails {a : Word} {s t : State} (hz : (memRead a s).1 ≠ 0x0000)
      (hw : conOut (lowByte (memRead a s).1) (memRead a s).2 = (false, t)) : PutsLoop a s false t
  | goesOn {a : Word} {s s' t : State} {r : Bool} (hz : (memRead a s).1 ≠ 0x0000)
      (hw : conOut (lowByte (memRead a s).1) (memRead a s).2 = (true, s')) (rest : PutsLoop (a + 1) s' r t) :
      PutsLoop a s r t

/-- The loop of R137 from an address, in the same form. -/
inductive PutspLoop : Word → State → Bool → State → Prop where
  | terminator {a : Word} {s : State} (hz : lowByte (memRead a s).1 = 0x00) : PutspLoop a s true (memRead a s).2
  | lowFails {a : Word} {s t : State} (hz : lowByte (memRead a s).1 ≠ 0x00)
      (hw : conOut (lowByte (memRead a s).1) (memRead a s).2 = (false, t)) : PutspLoop a s false t
  | highFails {a : Word} {s s' t : State} (hz : lowByte (memRead a s).1 ≠ 0x00)
      (hw : conOut (lowByte (memRead a s).1) (memRead a s).2 = (true, s')) (hh : highByte (memRead a s).1 ≠ 0x00)
      (hv : conOut (highByte (memRead a s).1) s' = (false, t)) : PutspLoop a s false t
  | oneByte {a : Word} {s s' t : State} {r : Bool} (hz : lowByte (memRead a s).1 ≠ 0x00)
      (hw : conOut (lowByte (memRead a s).1) (memRead a s).2 = (true, s')) (hh : highByte (memRead a s).1 = 0x00)
      (rest : PutspLoop (a + 1) s' r t) : PutspLoop a s r t
  | twoBytes {a : Word} {s s' s'' t : State} {r : Bool} (hz : lowByte (memRead a s).1 ≠ 0x00)
      (hw : conOut (lowByte (memRead a s).1) (memRead a s).2 = (true, s')) (hh : highByte (memRead a s).1 ≠ 0x00)
      (hv : conOut (highByte (memRead a s).1) s' = (true, s'')) (rest : PutspLoop (a + 1) s'' r t) : PutspLoop a s r t

/-- The recorded instruction word of a fatal stop set to zero: what is left does not show the word's ignored bits. -/
def StopStatus.forgetWord : StopStatus → StopStatus
  | .normal => .normal
  | .fatal kind info => .fatal kind { info with instr := 0 }

/-- An outcome's next state changed by a function. -/
def mapNext (f : State → State) : Host.Outcome State Fault Refusal → Host.Outcome State Fault Refusal
  | .next t => .next (f t)
  | .fault r => .fault r
  | .refused r => .refused r

/-- A state whose stop status does not show the recorded instruction word. -/
def State.forgetWord (s : State) : State := { s with stop := s.stop.map StopStatus.forgetWord }

/-! ### Runs (R175) -/

/-- The input stream is not empty (R171). -/
def Env.HasByte (e : Env) : Prop := e.input ≠ [] ∨ ∃ b, e.tail = .endless b

/-- What the environment may do between two steps: keep the listed bytes in their order, let more follow them
unless the stream has ended, and choose anew every answer to come (R171 to R174). -/
def Env.MayBecome (e e' : Env) : Prop :=
  e.input <+: e'.input ∧ (e.tail = .ended → e'.input = e.input ∧ e'.tail = .ended)

/-- The environment's move between two steps; it writes nothing of the core (R174). -/
def State.EnvMay (s t : State) : Prop := ∃ e, s.env.MayBecome e ∧ t = { s with env := e }

/-- A run (R175): the states before its steps. After each step the environment moves, with no limit on how its moves
vary; a run is over after a state that has no next one, where the core is HALTED or the step never completes. -/
structure IsRun (r : Nat → Option State) : Prop where
  next : ∀ n s t, r n = some s → step s = .next t → ∃ u, t.EnvMay u ∧ r (n + 1) = some u
  last : ∀ n s, r n = some s → (∀ t, step s ≠ .next t) → r (n + 1) = none
  after : ∀ n, r n = none → r (n + 1) = none

/-- What is observed of a run at its end: "the stop status, `out`, R0..R7, PC, COND and memory at that point" (R175). -/
structure Observation where
  stop : Option StopStatus
  out : List Byte
  regs : Vector Word 8
  pc : Word
  cond : Cond
  mem : Memory
deriving DecidableEq, Repr

/-- The observation of a state. -/
def State.observation (s : State) : Observation :=
  { stop := s.stop, out := s.out, regs := s.regs, pc := s.pc, cond := s.cond, mem := s.mem }

/-- "A run ends when the core is HALTED" (R175), with this observation. -/
def RunEndsWith (r : Nat → Option State) (o : Observation) : Prop :=
  ∃ n s, r n = some s ∧ s.run = .halted ∧ s.observation = o

/-- The run ends (R175). -/
def RunEnds (r : Nat → Option State) : Prop := ∃ o, RunEndsWith r o

/-- "A run that never reaches HALTED ... is a hang, not an end" (R175). -/
def RunHangs (r : Nat → Option State) : Prop := ∀ n s, r n = some s → s.run = .running

/-- Premise (a) of R175: "a `KbdGet` is eventually answered or failed". A claim that a run ends assumes it. -/
def ReadsAreAnswered (r : Nat → Option State) : Prop := ∀ n s, r n = some s → step s ≠ .fault .inputNeverArrives

/-- The state with one more poll answer listed, the one that was to come anyway: the list is then not empty, so that a
step which polls shortens it. -/
def State.listPoll (s : State) : State :=
  { s with env := { s.env with pollReady :=
    { s.env.pollReady with coming := s.env.pollReady.coming ++ [s.env.pollReady.later] } } }

/-- The environment's answers to the polls of the next step, repeats of the last answer listed left out: the step polls
exactly where there are any. -/
def pollAnswers (s : State) : List Bool :=
  match step s.listPoll with
  | .next t => s.listPoll.env.pollReady.coming.take
      (s.listPoll.env.pollReady.coming.length - t.env.pollReady.coming.length)
  | .fault _ => []
  | .refused _ => []

/-- Premise (b) of R175 (D10's weak fairness): "if the input stream is non-empty and the program polls infinitely often,
some poll answers `some`". A claim that a polling loop ends assumes it. -/
def PollsAreFair (r : Nat → Option State) : Prop :=
  ∀ n, (∀ m ≥ n, ∃ s, r m = some s ∧ s.env.HasByte) →
    (∀ m ≥ n, ∃ k ≥ m, ∃ s, r k = some s ∧ pollAnswers s ≠ []) →
    ∃ k ≥ n, ∃ s, r k = some s ∧ true ∈ pollAnswers s

/-- A run with no fatal stop so far. -/
abbrev State.Safe (s : State) : Prop := ∀ kind info, s.stop ≠ some (.fatal kind info)

end Machine

end Sys2Proof
end

