-- ==== Sys2Proof/Certificates/Slice0/Obligations.lean ====
section
/-! DEFINITION. The statements for the provers, in the order of the spec's files. A statement about an instruction gives
its encoding (the words that decode to it), its effect as a next state, and its frame. Statements about every state hold
for every value of the open parameters (R8), of R0..R7, of memory and of the environment's choices, all of which stand
in the state (log entries 2 to 4). The encoding clauses rest on the opcode numbers and field positions that the spec
fixes in its decisions D1 and D2 (log entry 8). -/

open Sys2Proof Sys2Proof.Machine

/-! ### Notation of the spec (R9 to R11) -/

/-- R11. `sext_N(v)` has v's bits below N and bit N-1 of v above, for 1 <= N <= 16; `zext_16(b)` is the word 0x00bb. -/
def Obligations.SextCopiesTheSignBit : Prop :=
  (∀ (n : Nat) (v : BitVec n), 1 ≤ n → n ≤ 16 → ∀ i < 16,
    (sext v).getLsbD i = if i < n then v.getLsbD i else v.getLsbD (n - 1)) ∧
  ∀ b : Byte, zext16 b = (0x00#8 ++ b : Word)

/-! ### Architectural state (R20 to R34) -/

/-- R24. `setcc` writes ZRO for 0, NEG for 0x8000..0xFFFF, POS for 0x0001..0x7FFF, and COND alone. -/
def Obligations.SetccFollowsTheValue : Prop :=
  ∀ (v : Word) (s : State),
    (v = 0x0000 → setcc v s = { s with cond := .zro }) ∧
    (0x8000 ≤ v.toNat → setcc v s = { s with cond := .neg }) ∧
    (1 ≤ v.toNat → v.toNat ≤ 0x7FFF → setcc v s = { s with cond := .pos })

/-- R25. Only the flag-setting instructions write COND, each by `setcc` of the value it writes to its destination; that
GETC and IN leave COND and their destination where a console call fails is R132, by the spec's decision D13 (log entry
18). And "no instruction reads COND except BR": with any other value of COND, every other instruction has the same
outcome but for COND itself. -/
def Obligations.OnlyFlagSettersWriteCondAndOnlyBranchMayReadIt : Prop :=
  (∀ (i : Instr) (s t : State), exec i s = .next t →
    match i.flagDest with
    | none => t.cond = s.cond
    | some d => t.cond = flagOf (t.reg d) ∨
        (t.cond = s.cond ∧ t.reg d = s.reg d ∧ ∃ info, t.stop = some (.fatal .ioError info))) ∧
  (∀ (i : Instr) (s : State) (c : Cond), i.isBranch = false →
    mapNext (·.setCond .zro) (exec i (s.setCond c)) = mapNext (·.setCond .zro) (exec i s))

/-- R21. The writers of a general register: DR of the flag-setting instructions, R7 by JSR and JSRR, R0 by GETC and IN;
no other instruction writes one, TRAP no link register. -/
def Obligations.RegisterWriters : Prop :=
  ∀ (i : Instr) (s t : State) (r : RegIdx), exec i s = .next t → i.destination ≠ some r → t.reg r = s.reg r

/-- R26. An instruction that does not transfer control leaves PC at the value the fetch gave it. -/
def Obligations.OnlyControlTransferWritesPc : Prop :=
  ∀ (i : Instr) (s t : State), exec i s = .next t → i.transfersControl = false → t.pc = s.pc

/-- R41, R46, R52. A memory cell changes by a store to it, or, of the two device cells, by a poll; by nothing else. -/
def Obligations.OnlyStoresAndPollsWriteMemory : Prop :=
  ∀ (i : Instr) (s t : State) (a : Word), exec i s = .next t → a ≠ s.cfg.kbsrAddr → a ≠ s.cfg.kbdrAddr →
    (∀ v, storeOf s i ≠ some (a, v)) → t.store a = s.store a

/-- R30, R171. A step only appends to `out`, consumes input from its front only, and changes no parameter and not what
follows the listed input. -/
def Obligations.StepAppendsOutputAndConsumesInput : Prop :=
  ∀ (s t : State), step s = .next t →
    s.out <+: t.out ∧ t.env.input <:+ s.env.input ∧ t.env.tail = s.env.tail ∧ t.cfg = s.cfg

/-- The invariant (memory canonical; KBSR_ADDR != KBDR_ADDR, R42; a stop status exactly when HALTED, R29) is kept by
every step. -/
def Obligations.StepKeepsInvariant : Prop :=
  ∀ (s t : State), s.Inv → step s = .next t → t.Inv

/-- The state after reset meets the invariant. -/
def Obligations.ResetMeetsInvariant : Prop := State.reset.Inv

/-- The start of every run meets the invariant, whatever registers, images and environment it starts with. -/
def Obligations.StartMeetsInvariant : Prop :=
  ∀ (cfg : Config) (gpr : Vector Word 8) (images : List Image) (env : Env),
    cfg.wf → (startState cfg gpr images env).Inv

/-! ### Memory and the keyboard (R40 to R59, R171) -/

/-- R171. `KbdPoll()`: none where the environment so chooses or the stream is empty, else the front byte, removed. It
changes nothing of the core. (Availability as the environment's choice: the spec's decision D10; its form, log entry 4.)
-/
def Obligations.PollTakesTheFrontByteOrNone : Prop :=
  ∀ (s : State), ∃ e : Env, (kbdPoll s).2 = { s with env := e } ∧ e.tail = s.env.tail ∧
    e.readFails = s.env.readFails ∧ e.writeFails = s.env.writeFails ∧
    (s.env.pollReady.answer = false → (kbdPoll s).1 = none ∧ e.input = s.env.input) ∧
    (s.env.pollReady.answer = true →
      (∀ b rest, s.env.input = b :: rest → (kbdPoll s).1 = some b ∧ e.input = rest) ∧
      (s.env.input = [] → e.input = [] ∧
        (∀ b, s.env.tail = .endless b → (kbdPoll s).1 = some b) ∧
        (s.env.tail = .ended ∨ s.env.tail = .silent → (kbdPoll s).1 = none)))

/-- R43. `MemRead(addr)`: at KBSR_ADDR it polls, sets KBSR to 0x8000 and KBDR to the byte, or KBSR to 0; then it reads
the cell. No other address polls, and no read changes anything else. -/
def Obligations.MemReadPollsAtKbsrOnly : Prop :=
  ∀ (s : State), s.cfg.wf →
    (∀ b, (kbdPoll s).1 = some b → ∃ t, memRead s.cfg.kbsrAddr s = (0x8000, t) ∧
      t.store s.cfg.kbsrAddr = 0x8000 ∧ t.store s.cfg.kbdrAddr = zext16 b ∧
      KeepsCellsBut [s.cfg.kbsrAddr, s.cfg.kbdrAddr] s t ∧
      KeepsRegsBut [] s t ∧ t.pc = s.pc ∧ t.cond = s.cond ∧ t.out = s.out ∧ t.env = (kbdPoll s).2.env ∧ KeepsRun s t) ∧
    ((kbdPoll s).1 = none → ∃ t, memRead s.cfg.kbsrAddr s = (0x0000, t) ∧
      t.store s.cfg.kbsrAddr = 0x0000 ∧ KeepsCellsBut [s.cfg.kbsrAddr] s t ∧
      KeepsRegsBut [] s t ∧ t.pc = s.pc ∧ t.cond = s.cond ∧ t.out = s.out ∧ t.env = (kbdPoll s).2.env ∧ KeepsRun s t) ∧
    (∀ a, a ≠ s.cfg.kbsrAddr → memRead a s = (s.store a, s))

/-- R46. `MemWrite(addr, v)`: the cell holds v, for every address, the device cells included; nothing else changes. -/
def Obligations.MemWriteStoresPlainly : Prop :=
  ∀ (a v : Word) (s : State),
    (memWrite a v s).store a = v ∧ KeepsCellsBut [a] s (memWrite a v s) ∧ KeepsRegsBut [] s (memWrite a v s) ∧
    (memWrite a v s).pc = s.pc ∧ (memWrite a v s).cond = s.cond ∧ KeepsConsole s (memWrite a v s) ∧
    KeepsRun s (memWrite a v s)

/-- R47. A value written to KBSR is never returned by a read of KBSR: the read answers, and leaves the whole state, as
if it had not been written. A value written to KBDR is returned by the next read of KBDR. (Both marked "derived" by the
spec.) -/
def Obligations.WritesToTheDeviceCells : Prop :=
  ∀ (v : Word) (s : State), s.cfg.wf →
    memRead s.cfg.kbsrAddr (memWrite s.cfg.kbsrAddr v s) = memRead s.cfg.kbsrAddr s ∧
    (memRead s.cfg.kbdrAddr (memWrite s.cfg.kbdrAddr v s)).1 = v

/-- R58. A store is seen by the very next fetch of its address (KBSR_ADDR apart, whose fetch polls). (Marked "derived"
by the spec.) -/
def Obligations.NextFetchSeesTheStore : Prop :=
  ∀ (i : Instr) (s t : State) (a v : Word), storeOf s i = some (a, v) → exec i s = .next t → t.pc = a →
    a ≠ s.cfg.kbsrAddr → (fetch t).1 = v

/-! ### The instruction cycle and encoding (R60 to R76) -/

/-- R61, R63. A running core's step reads the word at PC, increments PC modulo 65536, and executes the word's rule. -/
def Obligations.StepFetchesDecodesExecutes : Prop :=
  ∀ (s : State), s.run = .running →
    step s = exec (decode (memRead s.pc s).1) ((memRead s.pc s).2.setPc (s.pc + 1))

/-- Where the word at PC is a well-formed instruction's (and PC is not KBSR_ADDR), the step is that instruction's
meaning at the state with PC incremented. -/
def Obligations.StepRunsTheInstructionAtPc : Prop :=
  ∀ (i : Instr) (s : State), i.wf = true → s.run = .running → s.pc ≠ s.cfg.kbsrAddr → s.store s.pc = encode i →
    step s = exec i (s.setPc (s.pc + 1))

/-- R28, R60. A core takes no step exactly when it is HALTED: `step` answers the fault `halted` then and only then. -/
def Obligations.OnlyAHaltedCoreHasNoStep : Prop :=
  ∀ (s : State), step s = .fault .halted ↔ s.run = .halted

/-- I9, I10 (93_implementation_defined.md). No step is refused, and a running core's step is stuck only in a routine:
GETC or IN waiting for a byte, PUTS or PUTSP walking a string without end. -/
def Obligations.RunningStepIsStuckOnlyInARoutine : Prop :=
  ∀ (s : State), s.run = .running →
    (∀ r, step s ≠ .refused r) ∧
    (∀ f, step s = .fault f → ∃ v, (decode (fetch s).1).vector = some v ∧
      ((f = .inputNeverArrives ∧ (v = 0x20 ∨ v = 0x23)) ∨ (f = .stringNeverEnds ∧ (v = 0x22 ∨ v = 0x24))))

/-- R66, R67, R70. Decoding the word of a well-formed instruction gives it back, with every operand. (The layout:
decisions D1 and D2; the row that stands for an overlapping word: log entry 7.) -/
def Obligations.DecodeUndoesEncode : Prop :=
  ∀ (i : Instr), i.wf = true → decode (encode i) = i

/-- R73. Every one of the 65536 words decodes to one instruction. That no bit of the word is lost is the model's choice,
constructors that keep the ignored bits (log entry 9), and so is which constructor is well formed where two rows match
a word (log entry 7). -/
def Obligations.EveryWordHasOneReading : Prop :=
  ∀ (w : Word), (decode w).wf = true ∧ encode (decode w) = w

/-- The words of the spec's examples (95_test_vectors.md) decode to the instructions they stand for (decisions D1, D2;
log entry 7). -/
def Obligations.ExampleWordsDecode : Prop :=
  decode 0x1283 = .add 1 2 0 3 ∧ decode 0x1058 = .add 0 1 3 0 ∧ decode 0x103F = .addi 0 0 0x1F ∧
  decode 0x5283 = .and 1 2 0 3 ∧ decode 0x54A0 = .andi 2 2 0 ∧ decode 0x997F = .not 4 5 0x3F ∧
  decode 0x05FD = .br false true false 0x1FD ∧ decode 0xC080 = .jmp 0 2 0 ∧ decode 0xC1C0 = .ret 0 ∧
  decode 0x4805 = .jsr 5 ∧ decode 0x40C0 = .jsrr 0 3 0 ∧ decode 0x2202 = .ld 1 2 ∧ decode 0xA003 = .ldi 0 3 ∧
  decode 0x68BF = .ldr 4 2 0x3F ∧ decode 0xEC0B = .lea 6 0x0B ∧ decode 0x37FE = .st 3 0x1FE ∧ decode 0xB001 = .sti 0 1 ∧
  decode 0x7380 = .str 1 6 0 ∧ decode 0xF020 = .getc ∧ decode 0xF025 = .halt ∧ decode 0xFF25 = .trap 0xF 0x25 ∧
  decode 0xF026 = .trapIllegal 0x26 ∧ decode 0x8000 = .rti 0 ∧ decode 0xD123 = .res 0x123

/-- R71. The ignored bits change nothing: two words that agree in opcode and assigned fields have the same outcome; for
TRAP, RTI and RES the same but for the instruction word itself in the record of a fatal stop. (The spec's decision D3.)
-/
def Obligations.IgnoredBitsChangeNothing : Prop :=
  ∀ (w w' : Word) (s : State), w.extractLsb' 12 4 = w'.extractLsb' 12 4 →
    -- ADD, AND register form: bits 4:3
    ((w.extractLsb' 12 4 = 0b0001#4 ∨ w.extractLsb' 12 4 = 0b0101#4) → w.getLsbD 5 = false → w'.getLsbD 5 = false →
      w.extractLsb' 6 6 = w'.extractLsb' 6 6 → w.extractLsb' 0 3 = w'.extractLsb' 0 3 →
      exec (decode w) s = exec (decode w') s) ∧
    -- NOT: bits 5:0
    (w.extractLsb' 12 4 = 0b1001#4 → w.extractLsb' 6 6 = w'.extractLsb' 6 6 → exec (decode w) s = exec (decode w') s) ∧
    -- JMP: bits 11:9 and 5:0
    (w.extractLsb' 12 4 = 0b1100#4 → w.extractLsb' 6 3 = w'.extractLsb' 6 3 → exec (decode w) s = exec (decode w') s) ∧
    -- JSRR: bits 10:9 and 5:0
    (w.extractLsb' 12 4 = 0b0100#4 → w.getLsbD 11 = false → w'.getLsbD 11 = false →
      w.extractLsb' 6 3 = w'.extractLsb' 6 3 → exec (decode w) s = exec (decode w') s) ∧
    -- TRAP: bits 11:8
    (w.extractLsb' 12 4 = 0b1111#4 → w.extractLsb' 0 8 = w'.extractLsb' 0 8 →
      mapNext State.forgetWord (exec (decode w) s) = mapNext State.forgetWord (exec (decode w') s)) ∧
    -- RTI, RES: bits 11:0
    ((w.extractLsb' 12 4 = 0b1000#4 ∨ w.extractLsb' 12 4 = 0b1101#4) →
      mapNext State.forgetWord (exec (decode w) s) = mapNext State.forgetWord (exec (decode w') s))

/-! ### ALU instructions (R90 to R96) -/

/-- R90. ADD, register form. -/
def Obligations.AddRegisterForm : Prop :=
  (∀ w : Word, w.extractLsb' 12 4 = 0b0001#4 → w.getLsbD 5 = false →
    decode w = .add (w.extractLsb' 9 3).toFin (w.extractLsb' 6 3).toFin (w.extractLsb' 3 2) (w.extractLsb' 0 3).toFin) ∧
  ∀ (dr sr1 sr2 : RegIdx) (x : BitVec 2) (s : State), ∃ t, exec (.add dr sr1 x sr2) s = .next t ∧
    GetsResult dr (s.reg sr1 + s.reg sr2) s t ∧ t.pc = s.pc ∧ KeepsCellsBut [] s t ∧ KeepsConsole s t ∧ KeepsRun s t

/-- R91. ADD, immediate form. -/
def Obligations.AddImmediateForm : Prop :=
  (∀ w : Word, w.extractLsb' 12 4 = 0b0001#4 → w.getLsbD 5 = true →
    decode w = .addi (w.extractLsb' 9 3).toFin (w.extractLsb' 6 3).toFin (w.extractLsb' 0 5)) ∧
  ∀ (dr sr1 : RegIdx) (imm5 : BitVec 5) (s : State), ∃ t, exec (.addi dr sr1 imm5) s = .next t ∧
    GetsResult dr (s.reg sr1 + sext imm5) s t ∧ t.pc = s.pc ∧ KeepsCellsBut [] s t ∧ KeepsConsole s t ∧ KeepsRun s t

/-- R92. AND, register form. -/
def Obligations.AndRegisterForm : Prop :=
  (∀ w : Word, w.extractLsb' 12 4 = 0b0101#4 → w.getLsbD 5 = false →
    decode w = .and (w.extractLsb' 9 3).toFin (w.extractLsb' 6 3).toFin (w.extractLsb' 3 2) (w.extractLsb' 0 3).toFin) ∧
  ∀ (dr sr1 sr2 : RegIdx) (x : BitVec 2) (s : State), ∃ t, exec (.and dr sr1 x sr2) s = .next t ∧
    GetsResult dr (s.reg sr1 &&& s.reg sr2) s t ∧ t.pc = s.pc ∧ KeepsCellsBut [] s t ∧ KeepsConsole s t ∧ KeepsRun s t

/-- R93. AND, immediate form. -/
def Obligations.AndImmediateForm : Prop :=
  (∀ w : Word, w.extractLsb' 12 4 = 0b0101#4 → w.getLsbD 5 = true →
    decode w = .andi (w.extractLsb' 9 3).toFin (w.extractLsb' 6 3).toFin (w.extractLsb' 0 5)) ∧
  ∀ (dr sr1 : RegIdx) (imm5 : BitVec 5) (s : State), ∃ t, exec (.andi dr sr1 imm5) s = .next t ∧
    GetsResult dr (s.reg sr1 &&& sext imm5) s t ∧ t.pc = s.pc ∧ KeepsCellsBut [] s t ∧ KeepsConsole s t ∧ KeepsRun s t

/-- R94. NOT: the bitwise complement within 16 bits. -/
def Obligations.NotComplements : Prop :=
  (∀ w : Word, w.extractLsb' 12 4 = 0b1001#4 →
    decode w = .not (w.extractLsb' 9 3).toFin (w.extractLsb' 6 3).toFin (w.extractLsb' 0 6)) ∧
  ∀ (dr sr : RegIdx) (x : BitVec 6) (s : State), ∃ t, exec (.not dr sr x) s = .next t ∧
    GetsResult dr (~~~(s.reg sr)) s t ∧ t.pc = s.pc ∧ KeepsCellsBut [] s t ∧ KeepsConsole s t ∧ KeepsRun s t

/-- R96. The immediate and register forms of ADD and AND agree where SR2 holds the sign-extended immediate. (Marked
"derived" by the spec.) -/
def Obligations.ImmediateAndRegisterFormsAgree : Prop :=
  ∀ (dr sr1 sr2 : RegIdx) (x : BitVec 2) (imm5 : BitVec 5) (s : State), s.reg sr2 = sext imm5 →
    exec (.add dr sr1 x sr2) s = exec (.addi dr sr1 imm5) s ∧ exec (.and dr sr1 x sr2) s = exec (.andi dr sr1 imm5) s

/-! ### Control transfer (R100 to R105) -/

/-- R100, R101. BR is taken exactly when a set bit of n, z, p meets its own value of COND; nothing but PC changes. -/
def Obligations.BranchFollowsCond : Prop :=
  (∀ w : Word, w.extractLsb' 12 4 = 0b0000#4 →
    decode w = .br (w.getLsbD 11) (w.getLsbD 10) (w.getLsbD 9) (w.extractLsb' 0 9)) ∧
  ∀ (n z p : Bool) (off : BitVec 9) (s : State), ∃ t, exec (.br n z p off) s = .next t ∧
    (((n = true ∧ s.cond = .neg) ∨ (z = true ∧ s.cond = .zro) ∨ (p = true ∧ s.cond = .pos)) → t.pc = s.pc + sext off) ∧
    (¬((n = true ∧ s.cond = .neg) ∨ (z = true ∧ s.cond = .zro) ∨ (p = true ∧ s.cond = .pos)) → t.pc = s.pc) ∧
    KeepsRegsBut [] s t ∧ t.cond = s.cond ∧ KeepsCellsBut [] s t ∧ KeepsConsole s t ∧ KeepsRun s t

/-- R102. JMP goes to the address in BaseR; RET is JMP with BaseR = 7. Nothing but PC changes. -/
def Obligations.JumpGoesToTheBaseRegister : Prop :=
  (∀ w : Word, w.extractLsb' 12 4 = 0b1100#4 →
    decode w = .jmp (w.extractLsb' 9 3) (w.extractLsb' 6 3).toFin (w.extractLsb' 0 6) ∨
    (w.extractLsb' 6 3 = 7#3 ∧ decode w = .ret (w.extractLsb' 0 6))) ∧
  ∀ (i : Instr) (base : RegIdx) (s : State),
    ((∃ hi lo, i = .jmp hi base lo) ∨ (base = 7 ∧ ∃ x, i = .ret x)) → ∃ t, exec i s = .next t ∧
      t.pc = s.reg base ∧ KeepsRegsBut [] s t ∧ t.cond = s.cond ∧ KeepsCellsBut [] s t ∧ KeepsConsole s t ∧ KeepsRun s t

/-- R103. JSR: R7 holds the incremented PC, PC the target. -/
def Obligations.JsrLinksAndJumps : Prop :=
  (∀ w : Word, w.extractLsb' 12 4 = 0b0100#4 → w.getLsbD 11 = true → decode w = .jsr (w.extractLsb' 0 11)) ∧
  ∀ (off : BitVec 11) (s : State), ∃ t, exec (.jsr off) s = .next t ∧
    t.reg 7 = s.pc ∧ t.pc = s.pc + sext off ∧ KeepsRegsBut [7] s t ∧ t.cond = s.cond ∧ KeepsCellsBut [] s t ∧
    KeepsConsole s t ∧ KeepsRun s t

/-- R104. JSRR: R7 is written first, then BaseR is read, so JSRR R7 continues at the next instruction. -/
def Obligations.JsrrLinksFirstThenJumps : Prop :=
  (∀ w : Word, w.extractLsb' 12 4 = 0b0100#4 → w.getLsbD 11 = false →
    decode w = .jsrr (w.extractLsb' 9 2) (w.extractLsb' 6 3).toFin (w.extractLsb' 0 6)) ∧
  ∀ (hi : BitVec 2) (base : RegIdx) (lo : BitVec 6) (s : State), ∃ t, exec (.jsrr hi base lo) s = .next t ∧
    t.reg 7 = s.pc ∧ (base ≠ 7 → t.pc = s.reg base) ∧ (base = 7 → t.pc = s.pc) ∧ KeepsRegsBut [7] s t ∧
    t.cond = s.cond ∧ KeepsCellsBut [] s t ∧ KeepsConsole s t ∧ KeepsRun s t

/-! ### Loads, stores and LEA (R110 to R117) -/

/-- R110. LD: DR gets what `MemRead(PC + sext_9)` answers; memory and environment are as that read leaves them. -/
def Obligations.LdLoadsPcRelative : Prop :=
  (∀ w : Word, w.extractLsb' 12 4 = 0b0010#4 → decode w = .ld (w.extractLsb' 9 3).toFin (w.extractLsb' 0 9)) ∧
  ∀ (dr : RegIdx) (off : BitVec 9) (s : State), ∃ t, exec (.ld dr off) s = .next t ∧
    GetsResult dr (memRead (s.pc + sext off) s).1 s t ∧ t.pc = s.pc ∧ AfterRead (s.pc + sext off) s t

/-- R111. LDI: the pointer is read first, then the operand at the address it answers, each by `MemRead`. -/
def Obligations.LdiLoadsThroughThePointer : Prop :=
  (∀ w : Word, w.extractLsb' 12 4 = 0b1010#4 → decode w = .ldi (w.extractLsb' 9 3).toFin (w.extractLsb' 0 9)) ∧
  ∀ (dr : RegIdx) (off : BitVec 9) (s s1 : State) (ea : Word), memRead (s.pc + sext off) s = (ea, s1) →
    ∃ t, exec (.ldi dr off) s = .next t ∧ GetsResult dr (memRead ea s1).1 s t ∧ t.pc = s.pc ∧
      (∀ a, t.store a = (memRead ea s1).2.store a) ∧ t.out = s.out ∧ t.env = (memRead ea s1).2.env ∧ KeepsRun s t

/-- R112. LDR: DR gets what `MemRead(x[BaseR] + sext_6)` answers, with BaseR read before DR is written. -/
def Obligations.LdrLoadsBasePlusOffset : Prop :=
  (∀ w : Word, w.extractLsb' 12 4 = 0b0110#4 →
    decode w = .ldr (w.extractLsb' 9 3).toFin (w.extractLsb' 6 3).toFin (w.extractLsb' 0 6)) ∧
  ∀ (dr base : RegIdx) (off : BitVec 6) (s : State), ∃ t, exec (.ldr dr base off) s = .next t ∧
    GetsResult dr (memRead (s.reg base + sext off) s).1 s t ∧ t.pc = s.pc ∧ AfterRead (s.reg base + sext off) s t

/-- R113. LEA: DR gets the address, COND is set, no memory is read and no poll happens. -/
def Obligations.LeaComputesTheAddress : Prop :=
  (∀ w : Word, w.extractLsb' 12 4 = 0b1110#4 → decode w = .lea (w.extractLsb' 9 3).toFin (w.extractLsb' 0 9)) ∧
  ∀ (dr : RegIdx) (off : BitVec 9) (s : State), ∃ t, exec (.lea dr off) s = .next t ∧
    GetsResult dr (s.pc + sext off) s t ∧ t.pc = s.pc ∧ KeepsCellsBut [] s t ∧ KeepsConsole s t ∧ KeepsRun s t

/-- R114. ST: the cell at PC + sext_9 holds SR; nothing else changes, and nothing polls. -/
def Obligations.StStoresPcRelative : Prop :=
  (∀ w : Word, w.extractLsb' 12 4 = 0b0011#4 → decode w = .st (w.extractLsb' 9 3).toFin (w.extractLsb' 0 9)) ∧
  ∀ (sr : RegIdx) (off : BitVec 9) (s : State), ∃ t, exec (.st sr off) s = .next t ∧
    t.store (s.pc + sext off) = s.reg sr ∧ KeepsCellsBut [s.pc + sext off] s t ∧ KeepsRegsBut [] s t ∧ t.pc = s.pc ∧
    t.cond = s.cond ∧ KeepsConsole s t ∧ KeepsRun s t

/-- R115. STI: the pointer is read first, by a `MemRead`; the store goes where it answers, and does not poll. -/
def Obligations.StiStoresThroughThePointer : Prop :=
  (∀ w : Word, w.extractLsb' 12 4 = 0b1011#4 → decode w = .sti (w.extractLsb' 9 3).toFin (w.extractLsb' 0 9)) ∧
  ∀ (sr : RegIdx) (off : BitVec 9) (s s1 : State) (ea : Word), memRead (s.pc + sext off) s = (ea, s1) →
    ∃ t, exec (.sti sr off) s = .next t ∧ t.store ea = s.reg sr ∧ KeepsCellsBut [ea] s1 t ∧ KeepsRegsBut [] s t ∧
      t.pc = s.pc ∧ t.cond = s.cond ∧ t.out = s.out ∧ t.env = s1.env ∧ KeepsRun s t

/-- R116. STR: the cell at x[BaseR] + sext_6 holds SR; nothing else changes, and nothing polls. -/
def Obligations.StrStoresBasePlusOffset : Prop :=
  (∀ w : Word, w.extractLsb' 12 4 = 0b0111#4 →
    decode w = .str (w.extractLsb' 9 3).toFin (w.extractLsb' 6 3).toFin (w.extractLsb' 0 6)) ∧
  ∀ (sr base : RegIdx) (off : BitVec 6) (s : State), ∃ t, exec (.str sr base off) s = .next t ∧
    t.store (s.reg base + sext off) = s.reg sr ∧ KeepsCellsBut [s.reg base + sext off] s t ∧ KeepsRegsBut [] s t ∧
    t.pc = s.pc ∧ t.cond = s.cond ∧ KeepsConsole s t ∧ KeepsRun s t

/-! ### TRAP (R130 to R138) -/

/-- R130. The words of opcode 0b1111: the low byte is the vector, and bits 11:8 are ignored. -/
def Obligations.TrapWordsGiveTheirVector : Prop :=
  ∀ (w : Word), w.extractLsb' 12 4 = 0b1111#4 →
    (decode w).vector = some (w.extractLsb' 0 8) ∧
    ((decode w).illegal = true ↔ ¬(0x20 ≤ (w.extractLsb' 0 8).toNat ∧ (w.extractLsb' 0 8).toNat ≤ 0x25))

/-- R133. GETC: R0 gets the byte read, zero-extended, COND its `setcc` (never NEG); nothing is echoed and no cell
changes. A failing read, or one at the end of input (the spec's decision D11), is a fatal IOError that leaves R0 and
COND (D13). A read that is never answered is stuck (I10). -/
def Obligations.GetcReadsOneByte : Prop :=
  ∀ (i : Instr) (s : State), (i = .getc ∨ ∃ x, i = .trap x 0x20) →
    (∀ b, s.env.readFails.answer = false →
      ((∃ rest, s.env.input = b :: rest) ∨ (s.env.input = [] ∧ s.env.tail = .endless b)) → ∃ t, exec i s = .next t ∧
      GetsResult 0 (zext16 b) s t ∧ t.cond ≠ .neg ∧ t.pc = s.pc ∧ KeepsCellsBut [] s t ∧ t.out = s.out ∧ KeepsRun s t ∧
      t.env = { s.env with input := s.env.input.tail, readFails := s.env.readFails.advance }) ∧
    ((s.env.readFails.answer = true ∨ (s.env.input = [] ∧ s.env.tail = .ended)) → ∃ t, exec i s = .next t ∧
      StopsFatally .ioError (ioErrorInfo i s) s t ∧ KeepsCellsBut [] s t ∧ t.out = s.out) ∧
    (s.env.readFails.answer = false → s.env.input = [] → s.env.tail = .silent → exec i s = .fault .inputNeverArrives)

/-- R134. OUT: the low byte of R0 is appended to `out`; nothing else changes. A failing write is a fatal IOError. -/
def Obligations.OutWritesTheLowByte : Prop :=
  ∀ (i : Instr) (s : State), (i = .out ∨ ∃ x, i = .trap x 0x21) →
    (s.env.writeFails.answer = false → ∃ t, exec i s = .next t ∧ t.out = s.out ++ [(s.reg 0).extractLsb' 0 8] ∧
      KeepsRegsBut [] s t ∧ t.cond = s.cond ∧ t.pc = s.pc ∧ KeepsCellsBut [] s t ∧ KeepsRun s t ∧
      t.env = s.env.afterWrites 1) ∧
    (s.env.writeFails.answer = true → ∃ t, exec i s = .next t ∧ StopsFatally .ioError (ioErrorInfo i s) s t ∧
      KeepsCellsBut [] s t ∧ t.out = s.out)

/-- PUTS (R135) on a string that ends before it meets KBSR_ADDR, with its writes accepted: the low byte of each word
goes to `out`, in order and up to the terminator, the address advancing modulo 65536 (the spec's decision D12); nothing
else changes. -/
def Obligations.PutsWritesTheString : Prop :=
  ∀ (i : Instr) (s : State) (n : Nat), (i = .puts ∨ ∃ x, i = .trap x 0x22) → n < 65536 →
    (∀ k ≤ n, s.reg 0 + BitVec.ofNat 16 k ≠ s.cfg.kbsrAddr) → (∀ k < n, s.store (s.reg 0 + BitVec.ofNat 16 k) ≠ 0) →
    s.store (s.reg 0 + BitVec.ofNat 16 n) = 0 → AcceptsWrites n s.env → ∃ t, exec i s = .next t ∧
      t.out = s.out ++ (List.range n).map (fun k => (s.store (s.reg 0 + BitVec.ofNat 16 k)).extractLsb' 0 8) ∧
      KeepsRegsBut [] s t ∧ t.cond = s.cond ∧ t.pc = s.pc ∧ KeepsCellsBut [] s t ∧ KeepsRun s t ∧
      t.env = s.env.afterWrites n

/-- R135. PUTS does what the rule's loop does: where the loop ends at a terminator, its state is the next state; where a
write fails, the stop is a fatal IOError; where it never ends, the step is stuck (I9). The reads are `MemRead` and the
address wraps by the spec's decision D12. -/
def Obligations.PutsFollowsItsLoop : Prop :=
  ∀ (i : Instr) (s : State), (i = .puts ∨ ∃ x, i = .trap x 0x22) →
    (∀ t, PutsLoop (s.reg 0) s true t → exec i s = .next t) ∧
    (∀ t, PutsLoop (s.reg 0) s false t → exec i s = .next (raiseFatal .ioError (ioErrorInfo i s) t)) ∧
    ((¬∃ r t, PutsLoop (s.reg 0) s r t) → exec i s = .fault .stringNeverEnds)

/-- R136. IN: prompt, read, echo, then R0 and COND. Each failing call is a fatal IOError at once, with the bytes written
before it left in `out` (the spec's decisions D11, D13, D16). A read that is never answered is stuck (I10). -/
def Obligations.InPromptsReadsAndEchoes : Prop :=
  ∀ (i : Instr) (s : State), (i = .inp ∨ ∃ x, i = .trap x 0x23) →
    (∀ b, AcceptsWrites (s.cfg.inPrompt.length + 1) s.env → s.env.readFails.answer = false →
      ((∃ rest, s.env.input = b :: rest) ∨ (s.env.input = [] ∧ s.env.tail = .endless b)) → ∃ t, exec i s = .next t ∧
      GetsResult 0 (zext16 b) s t ∧ t.pc = s.pc ∧ KeepsCellsBut [] s t ∧ KeepsRun s t ∧
      t.out = s.out ++ s.cfg.inPrompt ++ [b] ∧ t.env.input = s.env.input.tail) ∧
    (∀ k < s.cfg.inPrompt.length, AcceptsWrites k s.env → ¬AcceptsWrites (k + 1) s.env → ∃ t, exec i s = .next t ∧
      StopsFatally .ioError (ioErrorInfo i s) s t ∧ KeepsCellsBut [] s t ∧ t.out = s.out ++ s.cfg.inPrompt.take k ∧
      t.env.input = s.env.input) ∧
    (AcceptsWrites s.cfg.inPrompt.length s.env →
      (s.env.readFails.answer = true ∨ (s.env.input = [] ∧ s.env.tail = .ended)) → ∃ t, exec i s = .next t ∧
      StopsFatally .ioError (ioErrorInfo i s) s t ∧ KeepsCellsBut [] s t ∧ t.out = s.out ++ s.cfg.inPrompt) ∧
    (∀ b, AcceptsWrites s.cfg.inPrompt.length s.env → ¬AcceptsWrites (s.cfg.inPrompt.length + 1) s.env →
      s.env.readFails.answer = false →
      ((∃ rest, s.env.input = b :: rest) ∨ (s.env.input = [] ∧ s.env.tail = .endless b)) → ∃ t, exec i s = .next t ∧
      StopsFatally .ioError (ioErrorInfo i s) s t ∧ KeepsCellsBut [] s t ∧ t.out = s.out ++ s.cfg.inPrompt) ∧
    (AcceptsWrites s.cfg.inPrompt.length s.env → s.env.readFails.answer = false → s.env.input = [] →
      s.env.tail = .silent → exec i s = .fault .inputNeverArrives)

/-- PUTSP (R137) on a string that ends before it meets KBSR_ADDR, with its writes accepted: of each word the low byte
and then, if it is not 0, the high byte go to `out`, up to the word whose low byte is 0 (the spec's decision D12 for the
wrap); nothing else changes. -/
def Obligations.PutspWritesTheString : Prop :=
  ∀ (i : Instr) (s : State) (n : Nat) (word : Nat → Word) (bytes : List Byte), (i = .putsp ∨ ∃ x, i = .trap x 0x24) →
    n < 65536 → (∀ k ≤ n, s.reg 0 + BitVec.ofNat 16 k ≠ s.cfg.kbsrAddr) →
    (∀ k ≤ n, word k = s.store (s.reg 0 + BitVec.ofNat 16 k)) →
    (∀ k < n, (word k).extractLsb' 0 8 ≠ 0x00#8) → (word n).extractLsb' 0 8 = 0x00#8 →
    bytes = (List.range n).flatMap (fun k =>
      if (word k).extractLsb' 8 8 = 0x00#8 then [(word k).extractLsb' 0 8]
      else [(word k).extractLsb' 0 8, (word k).extractLsb' 8 8]) →
    AcceptsWrites bytes.length s.env → ∃ t, exec i s = .next t ∧ t.out = s.out ++ bytes ∧
      KeepsRegsBut [] s t ∧ t.cond = s.cond ∧ t.pc = s.pc ∧ KeepsCellsBut [] s t ∧ KeepsRun s t ∧
      t.env = s.env.afterWrites bytes.length

/-- R137. PUTSP does what the rule's loop does, and with two distinct device cells the loop always ends: a walk that
reaches KBSR_ADDR reads a word whose low byte is 0 (the spec's decision D12), so every PUTSP completes. -/
def Obligations.PutspFollowsItsLoop : Prop :=
  ∀ (i : Instr) (s : State), (i = .putsp ∨ ∃ x, i = .trap x 0x24) → s.cfg.wf →
    (∃ r t, PutspLoop (s.reg 0) s r t) ∧ (∃ t, exec i s = .next t) ∧
    (∀ t, PutspLoop (s.reg 0) s true t → exec i s = .next t) ∧
    (∀ t, PutspLoop (s.reg 0) s false t → exec i s = .next (raiseFatal .ioError (ioErrorInfo i s) t))

/-- R138. HALT: the notice, then HALTED with stop status Normal; nothing else changes. A failing notice is a fatal
IOError (the spec's decision D16). -/
def Obligations.HaltStopsNormally : Prop :=
  ∀ (i : Instr) (s : State), (i = .halt ∨ ∃ x, i = .trap x 0x25) →
    (AcceptsWrites s.cfg.haltNotice.length s.env → ∃ t, exec i s = .next t ∧ t.run = .halted ∧ t.stop = some .normal ∧
      StopStatus.normal.exitCode = 0 ∧ t.out = s.out ++ s.cfg.haltNotice ∧ KeepsRegsBut [] s t ∧ t.cond = s.cond ∧
      t.pc = s.pc ∧ KeepsCellsBut [] s t ∧ t.cfg = s.cfg ∧ t.env = s.env.afterWrites s.cfg.haltNotice.length) ∧
    (∀ k < s.cfg.haltNotice.length, AcceptsWrites k s.env → ¬AcceptsWrites (k + 1) s.env → ∃ t, exec i s = .next t ∧
      StopsFatally .ioError (ioErrorInfo i s) s t ∧ KeepsCellsBut [] s t ∧ t.out = s.out ++ s.cfg.haltNotice.take k)

/-- R132. Where a console call inside a routine fails, the stop records the vector, the word and its address, and
nothing but `out`, the environment and the device cells of a walk that polled differs from before the routine (the
spec's decision D13). -/
def Obligations.ConsoleFailureStopsAtOnce : Prop :=
  ∀ (i : Instr) (s t : State) (info : FatalInfo), s.stop = none → exec i s = .next t →
    t.stop = some (.fatal .ioError info) →
    info = ioErrorInfo i s ∧ StopsFatally .ioError info s t ∧ s.out <+: t.out ∧
    KeepsCellsBut [s.cfg.kbsrAddr, s.cfg.kbdrAddr] s t

/-! ### Illegal instructions (R150 to R152) -/

/-- R150, R151. RTI and RES stop the core with `Fatal(IllegalOpcode)`, whatever bits 11:0 hold; nothing but the run
state and the stop status changes. -/
def Obligations.ReservedOpcodesStopTheCore : Prop :=
  (∀ w : Word, w.extractLsb' 12 4 = 0b1000#4 → decode w = .rti (w.extractLsb' 0 12)) ∧
  (∀ w : Word, w.extractLsb' 12 4 = 0b1101#4 → decode w = .res (w.extractLsb' 0 12)) ∧
  ∀ (i : Instr) (op : BitVec 4) (s : State), ((∃ x, i = .rti x ∧ op = 0x8) ∨ (∃ x, i = .res x ∧ op = 0xD)) →
    ∃ t, exec i s = .next t ∧
      StopsFatally .illegalOpcode { op := some op, vector := none, instr := encode i, addr := s.pc - 1 } s t ∧
      KeepsCellsBut [] s t ∧ KeepsConsole s t

/-- R152. A TRAP word with a vector outside 0x20..0x25 stops the core with `Fatal(IllegalOpcode)`. -/
def Obligations.UnrecognisedVectorStopsTheCore : Prop :=
  ∀ (i : Instr) (v : Byte) (s : State), (i = .trapIllegal v ∨ ∃ x, i = .trap x v) → (v.toNat < 0x20 ∨ 0x25 < v.toNat) →
    ∃ t, exec i s = .next t ∧
      StopsFatally .illegalOpcode { op := some 0xF, vector := some v, instr := encode i, addr := s.pc - 1 } s t ∧
      KeepsCellsBut [] s t ∧ KeepsConsole s t

/-! ### Errors and stops (R160 to R166) -/

/-- R28, R161, R162. A running core stops by nothing but HALT, an illegal word, or a failing console call of a TRAP
routine, and the stop status says which. -/
def Obligations.CausesOfAStop : Prop :=
  ∀ (i : Instr) (s t : State), i.wf = true → s.run = .running → exec i s = .next t → t.run = .halted →
    (i.vector = some 0x25 ∧ t.stop = some .normal) ∨
    (i.illegal = true ∧ t.stop = some (.fatal .illegalOpcode
      { op := some ((encode i).extractLsb' 12 4), vector := i.vector, instr := encode i, addr := s.pc - 1 })) ∨
    (i.illegal = false ∧ i.vector.isSome = true ∧ t.stop = some (.fatal .ioError (ioErrorInfo i s)))

/-- R164. A step on an illegal word (PC not at KBSR_ADDR) has the fetch's effects and the stop, and no other. (Marked
"derived" by the spec.) -/
def Obligations.IllegalWordStopIsPrecise : Prop :=
  ∀ (s : State), s.run = .running → s.pc ≠ s.cfg.kbsrAddr → (decode (s.store s.pc)).illegal = true →
    ∃ t, step s = .next t ∧ t.pc = s.pc + 1 ∧ t.run = .halted ∧
      t.stop = some (.fatal .illegalOpcode
        { op := some ((s.store s.pc).extractLsb' 12 4), vector := (decode (s.store s.pc)).vector,
          instr := s.store s.pc, addr := s.pc }) ∧
      KeepsRegsBut [] s t ∧ t.cond = s.cond ∧ KeepsCellsBut [] s t ∧ KeepsConsole s t ∧ t.cfg = s.cfg

/-- R165, I18. A step with PC = KBSR_ADDR fetches the polled status: 0x8000, an illegal RTI, where the poll finds a
byte; 0x0000, a branch never taken, where it does not. (Marked "derived" by the spec.) -/
def Obligations.FetchAtKbsrPolls : Prop :=
  ∀ (s : State), s.run = .running → s.cfg.wf → s.pc = s.cfg.kbsrAddr →
    (∀ b, (kbdPoll s).1 = some b → ∃ t, step s = .next t ∧ t.pc = s.pc + 1 ∧ t.run = .halted ∧
      t.stop = some (.fatal .illegalOpcode { op := some 0x8, vector := none, instr := 0x8000, addr := s.pc }) ∧
      t.store s.cfg.kbsrAddr = 0x8000 ∧ t.store s.cfg.kbdrAddr = zext16 b ∧
      KeepsCellsBut [s.cfg.kbsrAddr, s.cfg.kbdrAddr] s t ∧ KeepsRegsBut [] s t ∧ t.cond = s.cond ∧ t.out = s.out ∧
      t.env = (kbdPoll s).2.env ∧ t.cfg = s.cfg) ∧
    ((kbdPoll s).1 = none → ∃ t, step s = .next t ∧ t.pc = s.pc + 1 ∧ KeepsRun s t ∧ KeepsRegsBut [] s t ∧
      t.cond = s.cond ∧ t.store s.cfg.kbsrAddr = 0x0000 ∧ KeepsCellsBut [s.cfg.kbsrAddr] s t ∧ t.out = s.out ∧
      t.env = (kbdPoll s).2.env)

/-! ### Reset and images (R190 to R197) -/

/-- R190, R191. The start of a run: PC = 0x3000, COND = ZRO, R0..R7 any values, memory zero but for the images, RUNNING,
no stop status, `out` empty; the first step fetches from 0x3000. -/
def Obligations.StartOfARun : Prop :=
  ∀ (cfg : Config) (gpr : Vector Word 8) (images : List Image) (env : Env) (s : State),
    s = startState cfg gpr images env →
    s.pc = 0x3000 ∧ s.cond = .zro ∧ (∀ r : RegIdx, s.reg r = gpr.get r) ∧ s.run = .running ∧ s.stop = none ∧ s.out = [] ∧
    s.env = env ∧ (∀ a, s.store a = (loadImages images).read a.toNat) ∧
    (images = [] → ∀ a, s.store a = 0x0000) ∧ (cfg.kbsrAddr ≠ 0x3000 → (fetch s).1 = s.store 0x3000)

/-- R193. Loading an image: word k goes to origin + k where that is at most 0xFFFF, every other cell keeps its word; the
images are loaded in order, each fully before the next. -/
def Obligations.ImageGoesFromItsOriginUp : Prop :=
  (∀ (m : Memory) (i : Image) (a : Nat), a ≤ 0xFFFF →
    (loadImage m i).read a =
      if i.origin.toNat ≤ a then (i.words[a - i.origin.toNat]?).getD (m.read a) else m.read a) ∧
  (loadImages [] = []) ∧
  ∀ (is : List Image) (i : Image), loadImages (is ++ [i]) = loadImage (loadImages is) i

/-- R194. An image file's bytes are big-endian words, high byte first: the first is the origin, the rest the image. -/
def Obligations.ImageFileIsBigEndian : Prop :=
  ∀ (origin : Word) (ws : List Word),
    parseImage ((origin :: ws).flatMap (fun w => [w.extractLsb' 8 8, w.extractLsb' 0 8])) = some ⟨origin, ws⟩

/-- A file is an image exactly when its byte count is even and it holds an origin word; any other is a load error (R195;
that a file without an origin word is one, and a file of the origin alone is not, is the spec's decision D17). -/
def Obligations.OtherFilesAreLoadErrors : Prop :=
  ∀ file : List Byte, parseImage file = none ↔ (file.length % 2 = 1 ∨ file.length < 2)

/-- R196. No image file is a usage error; one malformed or unreadable file among them is a load error, and no run
starts; otherwise the run starts from the images in argument order. (The spec's decisions D17 and D19.) -/
def Obligations.LaunchRunsOrReportsTheError : Prop :=
  ∀ (cfg : Config) (gpr : Vector Word 8) (env : Env) (file : Option (List Byte)) (files : List (Option (List Byte))),
    launch cfg gpr [] env = .usageError ∧
    ((∃ f ∈ file :: files, f.bind parseImage = none) → launch cfg gpr (file :: files) env = .imageLoadError) ∧
    (∀ images : List Image, (file :: files).map (fun f => f.bind parseImage) = images.map some →
      launch cfg gpr (file :: files) env = .run (startState cfg gpr images env))
end

