-- ==== Sys2Proof/Laws/State.lean ====
section
/-! SUPPORT. One lemma per field per update of State, each true by definition, and the registers and cells an update
leaves: later proofs cite these and unfold no record update. -/

namespace Sys2Proof.Machine

variable (s : State)

/-! ### `setReg` -/

@[simp] theorem setReg_regs (r : RegIdx) (v : Word) : (s.setReg r v).regs = s.regs.set r v := rfl
@[simp] theorem setReg_pc (r : RegIdx) (v : Word) : (s.setReg r v).pc = s.pc := rfl
@[simp] theorem setReg_cond (r : RegIdx) (v : Word) : (s.setReg r v).cond = s.cond := rfl
@[simp] theorem setReg_mem (r : RegIdx) (v : Word) : (s.setReg r v).mem = s.mem := rfl
@[simp] theorem setReg_run (r : RegIdx) (v : Word) : (s.setReg r v).run = s.run := rfl
@[simp] theorem setReg_stop (r : RegIdx) (v : Word) : (s.setReg r v).stop = s.stop := rfl
@[simp] theorem setReg_out (r : RegIdx) (v : Word) : (s.setReg r v).out = s.out := rfl
@[simp] theorem setReg_cfg (r : RegIdx) (v : Word) : (s.setReg r v).cfg = s.cfg := rfl
@[simp] theorem setReg_env (r : RegIdx) (v : Word) : (s.setReg r v).env = s.env := rfl
@[simp] theorem setReg_store (r : RegIdx) (v : Word) (b : Word) : (s.setReg r v).store b = s.store b := rfl

/-! ### `setPc` -/

@[simp] theorem setPc_regs (a : Word) : (s.setPc a).regs = s.regs := rfl
@[simp] theorem setPc_pc (a : Word) : (s.setPc a).pc = a := rfl
@[simp] theorem setPc_cond (a : Word) : (s.setPc a).cond = s.cond := rfl
@[simp] theorem setPc_mem (a : Word) : (s.setPc a).mem = s.mem := rfl
@[simp] theorem setPc_run (a : Word) : (s.setPc a).run = s.run := rfl
@[simp] theorem setPc_stop (a : Word) : (s.setPc a).stop = s.stop := rfl
@[simp] theorem setPc_out (a : Word) : (s.setPc a).out = s.out := rfl
@[simp] theorem setPc_cfg (a : Word) : (s.setPc a).cfg = s.cfg := rfl
@[simp] theorem setPc_env (a : Word) : (s.setPc a).env = s.env := rfl
@[simp] theorem setPc_reg (a : Word) (q : RegIdx) : (s.setPc a).reg q = s.reg q := rfl
@[simp] theorem setPc_store (a : Word) (b : Word) : (s.setPc a).store b = s.store b := rfl

/-! ### `setCond` -/

@[simp] theorem setCond_regs (c : Cond) : (s.setCond c).regs = s.regs := rfl
@[simp] theorem setCond_pc (c : Cond) : (s.setCond c).pc = s.pc := rfl
@[simp] theorem setCond_cond (c : Cond) : (s.setCond c).cond = c := rfl
@[simp] theorem setCond_mem (c : Cond) : (s.setCond c).mem = s.mem := rfl
@[simp] theorem setCond_run (c : Cond) : (s.setCond c).run = s.run := rfl
@[simp] theorem setCond_stop (c : Cond) : (s.setCond c).stop = s.stop := rfl
@[simp] theorem setCond_out (c : Cond) : (s.setCond c).out = s.out := rfl
@[simp] theorem setCond_cfg (c : Cond) : (s.setCond c).cfg = s.cfg := rfl
@[simp] theorem setCond_env (c : Cond) : (s.setCond c).env = s.env := rfl
@[simp] theorem setCond_reg (c : Cond) (q : RegIdx) : (s.setCond c).reg q = s.reg q := rfl
@[simp] theorem setCond_store (c : Cond) (b : Word) : (s.setCond c).store b = s.store b := rfl

/-! ### `setStore` -/

@[simp] theorem setStore_regs (a v : Word) : (s.setStore a v).regs = s.regs := rfl
@[simp] theorem setStore_pc (a v : Word) : (s.setStore a v).pc = s.pc := rfl
@[simp] theorem setStore_cond (a v : Word) : (s.setStore a v).cond = s.cond := rfl
@[simp] theorem setStore_mem (a v : Word) : (s.setStore a v).mem = s.mem.write a.toNat v := rfl
@[simp] theorem setStore_run (a v : Word) : (s.setStore a v).run = s.run := rfl
@[simp] theorem setStore_stop (a v : Word) : (s.setStore a v).stop = s.stop := rfl
@[simp] theorem setStore_out (a v : Word) : (s.setStore a v).out = s.out := rfl
@[simp] theorem setStore_cfg (a v : Word) : (s.setStore a v).cfg = s.cfg := rfl
@[simp] theorem setStore_env (a v : Word) : (s.setStore a v).env = s.env := rfl
@[simp] theorem setStore_reg (a v : Word) (q : RegIdx) : (s.setStore a v).reg q = s.reg q := rfl

/-! ### `raiseFatal` -/

@[simp] theorem raiseFatal_regs (k : FatalKind) (info : FatalInfo) : (raiseFatal k info s).regs = s.regs := rfl
@[simp] theorem raiseFatal_pc (k : FatalKind) (info : FatalInfo) : (raiseFatal k info s).pc = s.pc := rfl
@[simp] theorem raiseFatal_cond (k : FatalKind) (info : FatalInfo) : (raiseFatal k info s).cond = s.cond := rfl
@[simp] theorem raiseFatal_mem (k : FatalKind) (info : FatalInfo) : (raiseFatal k info s).mem = s.mem := rfl
@[simp] theorem raiseFatal_run (k : FatalKind) (info : FatalInfo) : (raiseFatal k info s).run = .halted := rfl
@[simp] theorem raiseFatal_stop (k : FatalKind) (info : FatalInfo) : (raiseFatal k info s).stop = some (.fatal k info) := rfl
@[simp] theorem raiseFatal_out (k : FatalKind) (info : FatalInfo) : (raiseFatal k info s).out = s.out := rfl
@[simp] theorem raiseFatal_cfg (k : FatalKind) (info : FatalInfo) : (raiseFatal k info s).cfg = s.cfg := rfl
@[simp] theorem raiseFatal_env (k : FatalKind) (info : FatalInfo) : (raiseFatal k info s).env = s.env := rfl
@[simp] theorem raiseFatal_reg (k : FatalKind) (info : FatalInfo) (q : RegIdx) : (raiseFatal k info s).reg q = s.reg q := rfl
@[simp] theorem raiseFatal_store (k : FatalKind) (info : FatalInfo) (b : Word) : (raiseFatal k info s).store b = s.store b := rfl

/-! ### `haltNormally` -/

@[simp] theorem haltNormally_regs : (haltNormally s).regs = s.regs := rfl
@[simp] theorem haltNormally_pc : (haltNormally s).pc = s.pc := rfl
@[simp] theorem haltNormally_cond : (haltNormally s).cond = s.cond := rfl
@[simp] theorem haltNormally_mem : (haltNormally s).mem = s.mem := rfl
@[simp] theorem haltNormally_run : (haltNormally s).run = .halted := rfl
@[simp] theorem haltNormally_stop : (haltNormally s).stop = some .normal := rfl
@[simp] theorem haltNormally_out : (haltNormally s).out = s.out := rfl
@[simp] theorem haltNormally_cfg : (haltNormally s).cfg = s.cfg := rfl
@[simp] theorem haltNormally_env : (haltNormally s).env = s.env := rfl
@[simp] theorem haltNormally_reg (q : RegIdx) : (haltNormally s).reg q = s.reg q := rfl
@[simp] theorem haltNormally_store (b : Word) : (haltNormally s).store b = s.store b := rfl

/-! ### `writeResult` -/

@[simp] theorem writeResult_regs (r : RegIdx) (v : Word) : (writeResult r v s).regs = s.regs.set r v := rfl
@[simp] theorem writeResult_pc (r : RegIdx) (v : Word) : (writeResult r v s).pc = s.pc := rfl
@[simp] theorem writeResult_cond (r : RegIdx) (v : Word) : (writeResult r v s).cond = flagOf v := rfl
@[simp] theorem writeResult_mem (r : RegIdx) (v : Word) : (writeResult r v s).mem = s.mem := rfl
@[simp] theorem writeResult_run (r : RegIdx) (v : Word) : (writeResult r v s).run = s.run := rfl
@[simp] theorem writeResult_stop (r : RegIdx) (v : Word) : (writeResult r v s).stop = s.stop := rfl
@[simp] theorem writeResult_out (r : RegIdx) (v : Word) : (writeResult r v s).out = s.out := rfl
@[simp] theorem writeResult_cfg (r : RegIdx) (v : Word) : (writeResult r v s).cfg = s.cfg := rfl
@[simp] theorem writeResult_env (r : RegIdx) (v : Word) : (writeResult r v s).env = s.env := rfl
@[simp] theorem writeResult_store (r : RegIdx) (v : Word) (b : Word) : (writeResult r v s).store b = s.store b := rfl

/-! ### Registers after a write -/

@[simp] theorem setReg_reg_same (r : RegIdx) (v : Word) : (s.setReg r v).reg r = v := by
  simp [State.reg, State.setReg, Vector.get_eq_getElem]

theorem setReg_reg_other {r q : RegIdx} (v : Word) (h : q ≠ r) : (s.setReg r v).reg q = s.reg q := by
  have : (r : Nat) ≠ q := fun e => h (Fin.ext e.symm)
  simp [State.reg, State.setReg, Vector.get_eq_getElem, this]

@[simp] theorem writeResult_reg_same (r : RegIdx) (v : Word) : (writeResult r v s).reg r = v := setReg_reg_same s r v

theorem writeResult_reg_other {r q : RegIdx} (v : Word) (h : q ≠ r) : (writeResult r v s).reg q = s.reg q :=
  setReg_reg_other s v h

end Sys2Proof.Machine
end

