-- ==== Sys2Proof/Laws/Memory.lean ====
section
/-! SUPPORT. The laws of memory: a write is read back and leaves every other cell alone, for any list of cells; and
each operation keeps the canonical form, under which equal memories are equal lists. -/

namespace Sys2Proof.Machine

theorem read_insert_same (m : Memory) (a : Nat) (v : Word) (h : ∀ c ∈ m, c.1 ≠ a) :
    (Memory.insert (a, v) m).read a = v := by
  induction m with
  | nil => simp [Memory.insert, Memory.read]
  | cons d m ih =>
    have hd : d.1 ≠ a := h d (by simp)
    unfold Memory.insert
    split
    · simp [Memory.read]
    · simpa [Memory.read, hd] using ih (fun c hc => h c (by simp [hc]))

theorem read_insert_other (m : Memory) {a b : Nat} (v : Word) (h : b ≠ a) :
    (Memory.insert (a, v) m).read b = m.read b := by
  induction m with
  | nil => simp [Memory.insert, Memory.read, h.symm]
  | cons d m ih =>
    unfold Memory.insert
    split
    · simp [Memory.read, h.symm]
    · simp [Memory.read, ih]

theorem read_filter_same (m : Memory) (a : Nat) : Memory.read (m.filter (fun c => c.1 != a)) a = Memory.unlisted := by
  induction m with
  | nil => rfl
  | cons d m ih =>
    by_cases hd : d.1 = a
    · simpa [List.filter_cons, hd] using ih
    · simpa [List.filter_cons, hd, Memory.read] using ih

theorem read_filter_other (m : Memory) {a b : Nat} (h : b ≠ a) :
    Memory.read (m.filter (fun c => c.1 != a)) b = m.read b := by
  induction m with
  | nil => rfl
  | cons d m ih =>
    by_cases hd : d.1 = a
    · have : d.1 ≠ b := fun e => h (e ▸ hd)
      simpa [List.filter_cons, hd, Memory.read, h.symm] using ih
    · simp [hd, Memory.read, ih]

theorem mem_filter_ne {m : Memory} {a : Nat} {c : Cell} (h : c ∈ m.filter (fun c => c.1 != a)) : c.1 ≠ a := by
  simpa using (List.mem_filter.mp h).2

/-- A write is read back (R45). -/
@[simp] theorem read_write_same (m : Memory) (a : Nat) (v : Word) : (m.write a v).read a = v := by
  unfold Memory.write
  dsimp only
  split
  · rename_i hv
    rw [read_filter_same, hv]
  · exact read_insert_same _ _ _ fun c hc => mem_filter_ne hc

/-- A write leaves every other cell alone (R46). -/
theorem read_write_other (m : Memory) {a b : Nat} (v : Word) (h : b ≠ a) : (m.write a v).read b = m.read b := by
  unfold Memory.write
  dsimp only
  split
  · exact read_filter_other m h
  · rw [read_insert_other _ _ h, read_filter_other m h]

theorem read_write (m : Memory) (a b : Nat) (v : Word) : (m.write a v).read b = if b = a then v else m.read b := by
  split
  · subst b; simp
  · exact read_write_other m v ‹_›

/-! ### The canonical form -/

theorem mem_insert {c d : Cell} {m : Memory} : d ∈ Memory.insert c m ↔ d = c ∨ d ∈ m := by
  induction m with
  | nil => simp [Memory.insert]
  | cons e m ih =>
    unfold Memory.insert
    split
    · simp
    · simp only [List.mem_cons, ih]
      tauto

theorem insert_sorted {c : Cell} {m : Memory} (hm : m.Pairwise (fun c d => c.1 < d.1)) (hc : ∀ d ∈ m, d.1 ≠ c.1) :
    (Memory.insert c m).Pairwise (fun c d => c.1 < d.1) := by
  induction m with
  | nil => simp [Memory.insert]
  | cons e m ih =>
    have he := List.pairwise_cons.mp hm
    unfold Memory.insert
    split
    · rename_i hlt
      refine List.pairwise_cons.mpr ⟨fun d hd => ?_, hm⟩
      rcases List.mem_cons.mp hd with rfl | hd
      · exact hlt
      · exact hlt.trans (he.1 d hd)
    · rename_i hge
      refine List.pairwise_cons.mpr ⟨fun d hd => ?_, ih he.2 fun d hd => hc d (by simp [hd])⟩
      rcases mem_insert.mp hd with rfl | hd
      · have := hc e (by simp)
        omega
      · exact he.1 d hd

/-- Every write keeps the canonical form. -/
theorem write_wf {m : Memory} {a : Nat} {v : Word} (hm : m.wf) (ha : a < 65536) : (m.write a v).wf := by
  have hf : (m.filter (fun c => c.1 != a)).Pairwise (fun c d => c.1 < d.1) := hm.1.filter _
  have hmem : ∀ c ∈ m.filter (fun c => c.1 != a), c.1 < 65536 ∧ c.2 ≠ Memory.unlisted :=
    fun c hc => hm.2 c (List.mem_filter.mp hc).1
  unfold Memory.write
  dsimp only
  split
  · exact ⟨hf, hmem⟩
  · rename_i hv
    refine ⟨insert_sorted hf fun d hd => mem_filter_ne hd, fun c hc => ?_⟩
    rcases mem_insert.mp hc with rfl | hc
    · exact ⟨ha, hv⟩
    · exact hmem c hc

/-- No cell is listed below the first. -/
theorem read_below_first {c : Cell} {m : Memory} (h : (c :: m).Pairwise (fun c d => c.1 < d.1)) {a : Nat}
    (ha : a ≤ c.1) : Memory.read m a = Memory.unlisted := by
  have h1 : ∀ d ∈ m, a < d.1 := fun d hd => lt_of_le_of_lt ha ((List.pairwise_cons.mp h).1 d hd)
  clear h
  induction m with
  | nil => rfl
  | cons d m ih =>
    have hd := h1 d (by simp)
    simp only [Memory.read, show d.1 ≠ a by omega, if_false]
    exact ih fun e he => h1 e (by simp [he])

theorem read_first (c : Cell) (m : Memory) : Memory.read (c :: m) c.1 = c.2 := by simp [Memory.read]

/-- In the canonical form two memories with equal cells are equal lists. -/
theorem eq_of_reads {m m' : Memory} (h : m.wf) (h' : m'.wf) (hr : ∀ a < 65536, m.read a = m'.read a) : m = m' := by
  induction m generalizing m' with
  | nil =>
    cases m' with
    | nil => rfl
    | cons d m' =>
      have hd := h'.2 d (by simp)
      exact absurd ((hr d.1 hd.1).trans (read_first d m')).symm hd.2
  | cons c m ih =>
    have hc := h.2 c (by simp)
    cases m' with
    | nil => exact absurd ((read_first c m).symm.trans (hr c.1 hc.1)) hc.2
    | cons d m' =>
      have hd := h'.2 d (by simp)
      have hcd : c.1 = d.1 := by
        rcases lt_trichotomy c.1 d.1 with hlt | he | hgt
        · have h1 := (read_first c m).symm.trans (hr c.1 hc.1)
          rw [Memory.read, if_neg hlt.ne', read_below_first h'.1 hlt.le] at h1
          exact absurd h1 hc.2
        · exact he
        · have h1 := (hr d.1 hd.1).trans (read_first d m')
          rw [Memory.read, if_neg hgt.ne', read_below_first h.1 hgt.le] at h1
          exact absurd h1.symm hd.2
      have hv : c.2 = d.2 := by
        have h1 := hr c.1 hc.1
        rw [read_first, hcd, read_first] at h1
        exact h1
      obtain rfl : c = d := Prod.ext hcd hv
      congr 1
      refine ih ⟨h.1.tail, fun e he => h.2 e (by simp [he])⟩ ⟨h'.1.tail, fun e he => h'.2 e (by simp [he])⟩ fun a ha => ?_
      by_cases hac : a = c.1
      · subst hac
        rw [read_below_first h.1 le_rfl, read_below_first h'.1 le_rfl]
      · simpa [Memory.read, Ne.symm hac] using hr a ha

/-! ### Cells of a state -/

@[simp] theorem setStore_store_same (s : State) (a v : Word) : (s.setStore a v).store a = v := by
  simp [State.store]

theorem setStore_store_other (s : State) {a b : Word} (v : Word) (h : b ≠ a) : (s.setStore a v).store b = s.store b :=
  read_write_other _ _ fun e => h (BitVec.eq_of_toNat_eq e)

theorem setStore_wf {s : State} (a v : Word) (h : s.mem.wf) : (s.setStore a v).mem.wf := write_wf h a.isLt

/-- Memory at the start of a run with nothing loaded is canonical. -/
theorem reset_mem_wf : State.reset.mem.wf := ⟨List.Pairwise.nil, fun _ h => by cases h⟩

/-- Placing an image keeps the canonical form (R193). -/
theorem loadWords_wf (a : Nat) (ws : List Word) {m : Memory} (h : m.wf) : (loadWords a ws m).wf := by
  induction ws generalizing a m with
  | nil => exact h
  | cons w ws ih =>
    refine ih (a + 1) ?_
    split
    · exact write_wf h (by omega)
    · exact h

/-- Loading images in order keeps the canonical form (R193). -/
theorem foldl_loadImage_wf (is : List Image) {m : Memory} (h : m.wf) : (is.foldl loadImage m).wf := by
  induction is generalizing m with
  | nil => exact h
  | cons i is ih => exact ih (loadWords_wf _ _ h)

end Sys2Proof.Machine
end

