-- ==== Sys2Proof/Laws/Ops.lean ====
section
/-! SUPPORT. What each shared operation can do, said once: the fields it leaves unchanged, the cells it writes, what it
answers. -/

namespace Sys2Proof.Machine

/-! ### The environment's choices -/

@[simp] theorem answer_nil (b : Bool) : Choices.answer ⟨[], b⟩ = b := rfl
@[simp] theorem answer_cons (b l : Bool) (bs : List Bool) : Choices.answer ⟨b :: bs, l⟩ = b := rfl
@[simp] theorem advance_nil (b : Bool) : Choices.advance ⟨[], b⟩ = ⟨[], b⟩ := rfl
@[simp] theorem advance_cons (b l : Bool) (bs : List Bool) : Choices.advance ⟨b :: bs, l⟩ = ⟨bs, l⟩ := rfl

/-- What `takeByte` can do: nothing, or hand out the front byte of the list, or one of an endless tail. -/
theorem takeByte_cases (e : Env) :
    (∃ b rest, e.input = b :: rest ∧ e.takeByte = (some b, { e with input := rest })) ∨
    (∃ b, e.input = [] ∧ e.tail = .endless b ∧ e.takeByte = (some b, e)) ∨
    (e.input = [] ∧ (∀ b, e.tail ≠ .endless b) ∧ e.takeByte = (none, e)) := by
  obtain ⟨input, tail, p, r, w⟩ := e
  cases input with
  | cons b rest => exact .inl ⟨b, rest, rfl, rfl⟩
  | nil => cases tail <;> simp [Env.takeByte]

@[simp] theorem takeByte_tail (e : Env) : e.takeByte.2.tail = e.tail := by
  rcases takeByte_cases e with ⟨b, r, h, h'⟩ | ⟨b, h, h2, h'⟩ | ⟨h, h2, h'⟩ <;> rw [h']

@[simp] theorem takeByte_writeFails (e : Env) : e.takeByte.2.writeFails = e.writeFails := by
  rcases takeByte_cases e with ⟨b, r, h, h'⟩ | ⟨b, h, h2, h'⟩ | ⟨h, h2, h'⟩ <;> rw [h']

/-- The stream is consumed from its front only (R171). -/
theorem takeByte_input_suffix (e : Env) : e.takeByte.2.input <:+ e.input := by
  rcases takeByte_cases e with ⟨b, r, h, h'⟩ | ⟨b, h, h2, h'⟩ | ⟨h, h2, h'⟩ <;> rw [h']
  exact h ▸ List.suffix_cons b r

/-! ### `KbdPoll`, `KbdGet`, `ConOut` -/

/-- A poll changes the environment only. -/
theorem kbdPoll_state (s : State) : (kbdPoll s).2 = { s with env := (kbdPoll s).2.env } := by
  unfold kbdPoll; dsimp only; split <;> rfl

/-- A poll the environment answers with `none` consumes nothing (R171). -/
theorem kbdPoll_notReady (s : State) (h : s.env.pollReady.answer = false) :
    kbdPoll s = (none, { s with env := { s.env with pollReady := s.env.pollReady.advance } }) := by
  simp [kbdPoll, h]

/-- A poll that finds a byte available takes the front byte, if the stream has one (R171). -/
theorem kbdPoll_ready (s : State) (h : s.env.pollReady.answer = true) :
    kbdPoll s = (({ s.env with pollReady := s.env.pollReady.advance } : Env).takeByte.1,
      { s with env := ({ s.env with pollReady := s.env.pollReady.advance } : Env).takeByte.2 }) := by
  simp [kbdPoll, h]

/-- A blocking read changes the environment only. -/
theorem kbdGet_state (s : State) : (kbdGet s).2 = { s with env := (kbdGet s).2.env } := by
  unfold kbdGet; dsimp only; split
  · rfl
  · split <;> rfl

/-- A write the environment accepts (R173). -/
theorem conOut_accepted (b : Byte) (s : State) (h : s.env.writeFails.answer = false) :
    conOut b s = (true, { s with env := (s.env.afterWrites 1), out := s.out ++ [b] }) := by
  simp [conOut, h, Env.afterWrites]

/-- A write that fails (R173). -/
theorem conOut_failed (b : Byte) (s : State) (h : s.env.writeFails.answer = true) :
    conOut b s = (false, { s with env := (s.env.afterWrites 1) }) := by
  simp [conOut, h, Env.afterWrites]

/-- What a write can do. -/
theorem conOut_cases (b : Byte) (s : State) :
    (s.env.writeFails.answer = false ∧ conOut b s = (true, { s with env := (s.env.afterWrites 1), out := s.out ++ [b] })) ∨
    (s.env.writeFails.answer = true ∧ conOut b s = (false, { s with env := (s.env.afterWrites 1) })) := by
  cases h : s.env.writeFails.answer
  · exact .inl ⟨rfl, conOut_accepted b s h⟩
  · exact .inr ⟨rfl, conOut_failed b s h⟩

@[simp] theorem kbdPoll_regs (s : State) : (kbdPoll s).2.regs = s.regs := by rw [kbdPoll_state]
@[simp] theorem kbdPoll_pc (s : State) : (kbdPoll s).2.pc = s.pc := by rw [kbdPoll_state]
@[simp] theorem kbdPoll_cond (s : State) : (kbdPoll s).2.cond = s.cond := by rw [kbdPoll_state]
@[simp] theorem kbdPoll_mem (s : State) : (kbdPoll s).2.mem = s.mem := by rw [kbdPoll_state]
@[simp] theorem kbdPoll_run (s : State) : (kbdPoll s).2.run = s.run := by rw [kbdPoll_state]
@[simp] theorem kbdPoll_stop (s : State) : (kbdPoll s).2.stop = s.stop := by rw [kbdPoll_state]
@[simp] theorem kbdPoll_out (s : State) : (kbdPoll s).2.out = s.out := by rw [kbdPoll_state]
@[simp] theorem kbdPoll_cfg (s : State) : (kbdPoll s).2.cfg = s.cfg := by rw [kbdPoll_state]

@[simp] theorem kbdGet_regs (s : State) : (kbdGet s).2.regs = s.regs := by rw [kbdGet_state]
@[simp] theorem kbdGet_pc (s : State) : (kbdGet s).2.pc = s.pc := by rw [kbdGet_state]
@[simp] theorem kbdGet_cond (s : State) : (kbdGet s).2.cond = s.cond := by rw [kbdGet_state]
@[simp] theorem kbdGet_mem (s : State) : (kbdGet s).2.mem = s.mem := by rw [kbdGet_state]
@[simp] theorem kbdGet_run (s : State) : (kbdGet s).2.run = s.run := by rw [kbdGet_state]
@[simp] theorem kbdGet_stop (s : State) : (kbdGet s).2.stop = s.stop := by rw [kbdGet_state]
@[simp] theorem kbdGet_out (s : State) : (kbdGet s).2.out = s.out := by rw [kbdGet_state]
@[simp] theorem kbdGet_cfg (s : State) : (kbdGet s).2.cfg = s.cfg := by rw [kbdGet_state]

@[simp] theorem conOut_regs (b : Byte) (s : State) : (conOut b s).2.regs = s.regs := by
  rcases conOut_cases b s with ⟨_, h⟩ | ⟨_, h⟩ <;> rw [h]
@[simp] theorem conOut_pc (b : Byte) (s : State) : (conOut b s).2.pc = s.pc := by
  rcases conOut_cases b s with ⟨_, h⟩ | ⟨_, h⟩ <;> rw [h]
@[simp] theorem conOut_cond (b : Byte) (s : State) : (conOut b s).2.cond = s.cond := by
  rcases conOut_cases b s with ⟨_, h⟩ | ⟨_, h⟩ <;> rw [h]
@[simp] theorem conOut_mem (b : Byte) (s : State) : (conOut b s).2.mem = s.mem := by
  rcases conOut_cases b s with ⟨_, h⟩ | ⟨_, h⟩ <;> rw [h]
@[simp] theorem conOut_run (b : Byte) (s : State) : (conOut b s).2.run = s.run := by
  rcases conOut_cases b s with ⟨_, h⟩ | ⟨_, h⟩ <;> rw [h]
@[simp] theorem conOut_stop (b : Byte) (s : State) : (conOut b s).2.stop = s.stop := by
  rcases conOut_cases b s with ⟨_, h⟩ | ⟨_, h⟩ <;> rw [h]
@[simp] theorem conOut_cfg (b : Byte) (s : State) : (conOut b s).2.cfg = s.cfg := by
  rcases conOut_cases b s with ⟨_, h⟩ | ⟨_, h⟩ <;> rw [h]

/-- `ConOut*` changes `out` and the environment only. -/
theorem conOutAll_state (bs : List Byte) (s : State) :
    (conOutAll bs s).2 = { s with out := (conOutAll bs s).2.out, env := (conOutAll bs s).2.env } := by
  induction bs generalizing s with
  | nil => rfl
  | cons b bs ih =>
    rcases conOut_cases b s with ⟨_, h⟩ | ⟨_, h⟩
    · simp only [conOutAll, h]
      rw [ih]
    · simp only [conOutAll, h]

@[simp] theorem conOutAll_regs (bs : List Byte) (s : State) : (conOutAll bs s).2.regs = s.regs := by rw [conOutAll_state]
@[simp] theorem conOutAll_pc (bs : List Byte) (s : State) : (conOutAll bs s).2.pc = s.pc := by rw [conOutAll_state]
@[simp] theorem conOutAll_cond (bs : List Byte) (s : State) : (conOutAll bs s).2.cond = s.cond := by rw [conOutAll_state]
@[simp] theorem conOutAll_mem (bs : List Byte) (s : State) : (conOutAll bs s).2.mem = s.mem := by rw [conOutAll_state]
@[simp] theorem conOutAll_run (bs : List Byte) (s : State) : (conOutAll bs s).2.run = s.run := by rw [conOutAll_state]
@[simp] theorem conOutAll_stop (bs : List Byte) (s : State) : (conOutAll bs s).2.stop = s.stop := by rw [conOutAll_state]
@[simp] theorem conOutAll_cfg (bs : List Byte) (s : State) : (conOutAll bs s).2.cfg = s.cfg := by rw [conOutAll_state]

theorem afterWrites_succ (n : Nat) (e : Env) : e.afterWrites (n + 1) = (e.afterWrites 1).afterWrites n := by
  simp [Env.afterWrites, Function.iterate_succ_apply]

theorem AcceptsWrites.first {n : Nat} {e : Env} (h : AcceptsWrites (n + 1) e) : e.writeFails.answer = false :=
  h 0 (by omega)

theorem AcceptsWrites.rest {n : Nat} {e : Env} (h : AcceptsWrites (n + 1) e) : AcceptsWrites n (e.afterWrites 1) :=
  fun k hk => by simpa [Env.afterWrites, Function.iterate_succ_apply] using h (k + 1) (by omega)

theorem acceptsWrites_succ {n : Nat} {e : Env} :
    AcceptsWrites (n + 1) e ↔ e.writeFails.answer = false ∧ AcceptsWrites n (e.afterWrites 1) := by
  refine ⟨fun h => ⟨h.first, h.rest⟩, fun ⟨h0, h⟩ k hk => ?_⟩
  cases k with
  | zero => exact h0
  | succ k => simpa [Env.afterWrites, Function.iterate_succ_apply] using h k (by omega)

/-- `ConOut*` where every write is accepted (R173). -/
theorem conOutAll_accepted (bs : List Byte) {s : State} (h : AcceptsWrites bs.length s.env) :
    conOutAll bs s = (true, { s with out := s.out ++ bs, env := s.env.afterWrites bs.length }) := by
  induction bs generalizing s with
  | nil => simp [conOutAll, Env.afterWrites]
  | cons b bs ih =>
    simp only [conOutAll, conOut_accepted b s h.first]
    rw [ih h.rest, List.length_cons, afterWrites_succ bs.length]
    simp

/-- `ConOut*` where write `k` is the first to fail (R173): the bytes before it stay in `out`. -/
theorem conOutAll_failed (bs : List Byte) {k : Nat} (hk : k < bs.length) {s : State} (h : AcceptsWrites k s.env)
    (hf : ¬AcceptsWrites (k + 1) s.env) :
    conOutAll bs s = (false, { s with out := s.out ++ bs.take k, env := s.env.afterWrites (k + 1) }) := by
  induction bs generalizing s k with
  | nil => simp at hk
  | cons b bs ih =>
    cases k with
    | zero =>
      have h0 : s.env.writeFails.answer = true := by
        cases ha : s.env.writeFails.answer
        · exact absurd (acceptsWrites_succ.mpr ⟨ha, fun k hk => by omega⟩) hf
        · rfl
      simp [conOutAll, conOut_failed b s h0]
    | succ k =>
      simp only [conOutAll, conOut_accepted b s h.first]
      rw [ih (by simpa using hk) h.rest (fun hc => hf (acceptsWrites_succ.mpr ⟨h.first, hc⟩)),
        afterWrites_succ (k + 1)]
      simp

/-! ### The three outcomes of `KbdGet` (R172) -/

/-- The byte a blocking read answers is the front byte of the stream. -/
theorem kbdGet_byte {s : State} {b : Byte} (hf : s.env.readFails.answer = false)
    (h : (∃ rest, s.env.input = b :: rest) ∨ (s.env.input = [] ∧ s.env.tail = .endless b)) :
    kbdGet s = (.byte b,
      { s with env := { s.env with input := s.env.input.tail, readFails := s.env.readFails.advance } }) := by
  obtain ⟨regs, pc, cond, mem, run, stop, out, cfg, ⟨input, tail, pr, rf, wf⟩⟩ := s
  obtain ⟨rest, h⟩ | ⟨h, h'⟩ := h
  · dsimp only at h hf ⊢
    subst h
    simp [kbdGet, hf, Env.takeByte]
  · dsimp only at h h' hf ⊢
    subst h h'
    simp [kbdGet, hf, Env.takeByte]

/-- A blocking read fails at the environment's choice, or at the end of input (D11). -/
theorem kbdGet_failed {s : State}
    (h : s.env.readFails.answer = true ∨ (s.env.input = [] ∧ s.env.tail = .ended)) :
    kbdGet s = (.failed, { s with env := { s.env with readFails := s.env.readFails.advance } }) := by
  obtain ⟨regs, pc, cond, mem, run, stop, out, cfg, ⟨input, tail, pr, rf, wf⟩⟩ := s
  obtain h | ⟨h, h'⟩ := h
  · dsimp only at h ⊢
    simp [kbdGet, h]
  · dsimp only at h h' ⊢
    subst h h'
    cases hf : rf.answer <;> simp [kbdGet, hf, Env.takeByte]

/-- A blocking read on an open stream with no byte to come is never answered (I10). -/
theorem kbdGet_neverAnswered {s : State} (hf : s.env.readFails.answer = false) (h : s.env.input = [])
    (h' : s.env.tail = .silent) :
    kbdGet s = (.neverAnswered, { s with env := { s.env with readFails := s.env.readFails.advance } }) := by
  obtain ⟨regs, pc, cond, mem, run, stop, out, cfg, ⟨input, tail, pr, rf, wf⟩⟩ := s
  dsimp only at h h' hf ⊢
  subst h h'
  simp [kbdGet, hf, Env.takeByte]

/-- Whatever every write keeps, `ConOut*` keeps. -/
theorem conOutAll_keeps {P : State → Prop} (hout : ∀ b s, P s → P (conOut b s).2) (bs : List Byte) {s : State} (h : P s) :
    P (conOutAll bs s).2 := by
  induction bs generalizing s with
  | nil => exact h
  | cons b bs ih =>
    have h' := hout b s h
    unfold conOutAll
    cases hc : conOut b s with
    | mk ok s' =>
      rw [hc] at h'
      cases ok
      · exact h'
      · exact ih h'

/-! ### `MemRead` and the fetch -/

/-- What the poll of a KBSR read does to the state (R43). -/
theorem pollKeyboard_cases (s : State) :
    (∃ b, (kbdPoll s).1 = some b ∧ pollKeyboard s =
      ((kbdPoll s).2.setStore s.cfg.kbsrAddr kbsrReady).setStore s.cfg.kbdrAddr (zext16 b)) ∨
    ((kbdPoll s).1 = none ∧ pollKeyboard s = (kbdPoll s).2.setStore s.cfg.kbsrAddr 0x0000) := by
  have hc := kbdPoll_cfg s
  unfold pollKeyboard
  cases h : kbdPoll s with
  | mk r s' =>
    rw [h] at hc
    dsimp only at hc
    cases r with
    | none => exact .inr ⟨rfl, by simp only [hc]⟩
    | some b => exact .inl ⟨b, rfl, by simp only [hc]⟩

@[simp] theorem pollKeyboard_regs (s : State) : (pollKeyboard s).regs = s.regs := by
  rcases pollKeyboard_cases s with ⟨b, _, h⟩ | ⟨_, h⟩ <;> simp [h]
@[simp] theorem pollKeyboard_pc (s : State) : (pollKeyboard s).pc = s.pc := by
  rcases pollKeyboard_cases s with ⟨b, _, h⟩ | ⟨_, h⟩ <;> simp [h]
@[simp] theorem pollKeyboard_cond (s : State) : (pollKeyboard s).cond = s.cond := by
  rcases pollKeyboard_cases s with ⟨b, _, h⟩ | ⟨_, h⟩ <;> simp [h]
@[simp] theorem pollKeyboard_run (s : State) : (pollKeyboard s).run = s.run := by
  rcases pollKeyboard_cases s with ⟨b, _, h⟩ | ⟨_, h⟩ <;> simp [h]
@[simp] theorem pollKeyboard_stop (s : State) : (pollKeyboard s).stop = s.stop := by
  rcases pollKeyboard_cases s with ⟨b, _, h⟩ | ⟨_, h⟩ <;> simp [h]
@[simp] theorem pollKeyboard_out (s : State) : (pollKeyboard s).out = s.out := by
  rcases pollKeyboard_cases s with ⟨b, _, h⟩ | ⟨_, h⟩ <;> simp [h]
@[simp] theorem pollKeyboard_cfg (s : State) : (pollKeyboard s).cfg = s.cfg := by
  rcases pollKeyboard_cases s with ⟨b, _, h⟩ | ⟨_, h⟩ <;> simp [h]

@[simp] theorem pollKeyboard_env (s : State) : (pollKeyboard s).env = (kbdPoll s).2.env := by
  rcases pollKeyboard_cases s with ⟨b, _, h⟩ | ⟨_, h⟩ <;> simp [h]

/-- The poll writes no cell but the two device cells. -/
theorem pollKeyboard_store_other (s : State) {a : Word} (h1 : a ≠ s.cfg.kbsrAddr) (h2 : a ≠ s.cfg.kbdrAddr) :
    (pollKeyboard s).store a = s.store a := by
  have hp : (kbdPoll s).2.store a = s.store a := by simp [State.store]
  rcases pollKeyboard_cases s with ⟨b, _, h⟩ | ⟨_, h⟩ <;> rw [h]
  · rw [setStore_store_other _ _ h2, setStore_store_other _ _ h1, hp]
  · rw [setStore_store_other _ _ h1, hp]

theorem pollKeyboard_wf {s : State} (h : s.mem.wf) : (pollKeyboard s).mem.wf := by
  have hp : (kbdPoll s).2.mem.wf := by rw [kbdPoll_mem]; exact h
  rcases pollKeyboard_cases s with ⟨b, _, h'⟩ | ⟨_, h'⟩ <;> rw [h']
  · exact setStore_wf _ _ (setStore_wf _ _ hp)
  · exact setStore_wf _ _ hp

/-- A read of any address but KBSR_ADDR has no side effect (R45). -/
theorem memRead_plain {a : Word} {s : State} (h : a ≠ s.cfg.kbsrAddr) : memRead a s = (s.store a, s) := by
  simp [memRead, h]

/-- A read of KBSR polls first (R43). -/
theorem memRead_kbsr (s : State) : memRead s.cfg.kbsrAddr s = ((pollKeyboard s).store s.cfg.kbsrAddr, pollKeyboard s) := by
  simp [memRead]

/-- What a read does to the state. -/
theorem memRead_cases (a : Word) (s : State) :
    (a ≠ s.cfg.kbsrAddr ∧ memRead a s = (s.store a, s)) ∨
    (a = s.cfg.kbsrAddr ∧ memRead a s = ((pollKeyboard s).store a, pollKeyboard s)) := by
  by_cases h : a = s.cfg.kbsrAddr
  · exact .inr ⟨h, by simp [memRead, h]⟩
  · exact .inl ⟨h, memRead_plain h⟩

@[simp] theorem memRead_regs (a : Word) (s : State) : (memRead a s).2.regs = s.regs := by
  rcases memRead_cases a s with ⟨_, h⟩ | ⟨_, h⟩ <;> simp [h]
@[simp] theorem memRead_pc (a : Word) (s : State) : (memRead a s).2.pc = s.pc := by
  rcases memRead_cases a s with ⟨_, h⟩ | ⟨_, h⟩ <;> simp [h]
@[simp] theorem memRead_cond (a : Word) (s : State) : (memRead a s).2.cond = s.cond := by
  rcases memRead_cases a s with ⟨_, h⟩ | ⟨_, h⟩ <;> simp [h]
@[simp] theorem memRead_run (a : Word) (s : State) : (memRead a s).2.run = s.run := by
  rcases memRead_cases a s with ⟨_, h⟩ | ⟨_, h⟩ <;> simp [h]
@[simp] theorem memRead_stop (a : Word) (s : State) : (memRead a s).2.stop = s.stop := by
  rcases memRead_cases a s with ⟨_, h⟩ | ⟨_, h⟩ <;> simp [h]
@[simp] theorem memRead_out (a : Word) (s : State) : (memRead a s).2.out = s.out := by
  rcases memRead_cases a s with ⟨_, h⟩ | ⟨_, h⟩ <;> simp [h]
@[simp] theorem memRead_cfg (a : Word) (s : State) : (memRead a s).2.cfg = s.cfg := by
  rcases memRead_cases a s with ⟨_, h⟩ | ⟨_, h⟩ <;> simp [h]

@[simp] theorem memRead_reg (a : Word) (s : State) (r : RegIdx) : (memRead a s).2.reg r = s.reg r := by
  simp [State.reg]

/-- The word a read answers is the one it leaves in the cell. -/
theorem memRead_value (a : Word) (s : State) : (memRead a s).1 = (memRead a s).2.store a := rfl

theorem memRead_store_other (a : Word) (s : State) {b : Word} (h1 : b ≠ s.cfg.kbsrAddr) (h2 : b ≠ s.cfg.kbdrAddr) :
    (memRead a s).2.store b = s.store b := by
  rcases memRead_cases a s with ⟨_, h⟩ | ⟨_, h⟩ <;> rw [h]
  exact pollKeyboard_store_other s h1 h2

theorem memRead_wf (a : Word) {s : State} (h : s.mem.wf) : (memRead a s).2.mem.wf := by
  rcases memRead_cases a s with ⟨_, h'⟩ | ⟨_, h'⟩ <;> rw [h']
  · exact h
  · exact pollKeyboard_wf h

theorem memWrite_wf (a v : Word) {s : State} (h : s.mem.wf) : (memWrite a v s).mem.wf := setStore_wf a v h

/-- The fetch is the read at PC, and PC incremented (R61). -/
theorem fetch_eq (s : State) : fetch s = ((memRead s.pc s).1, (memRead s.pc s).2.setPc (s.pc + 1)) := rfl

@[simp] theorem fetch_pc (s : State) : (fetch s).2.pc = s.pc + 1 := rfl

@[simp] theorem fetch_regs (s : State) : (fetch s).2.regs = s.regs := by simp [fetch_eq]
@[simp] theorem fetch_cond (s : State) : (fetch s).2.cond = s.cond := by simp [fetch_eq]
@[simp] theorem fetch_run (s : State) : (fetch s).2.run = s.run := by simp [fetch_eq]
@[simp] theorem fetch_stop (s : State) : (fetch s).2.stop = s.stop := by simp [fetch_eq]
@[simp] theorem fetch_out (s : State) : (fetch s).2.out = s.out := by simp [fetch_eq]
@[simp] theorem fetch_cfg (s : State) : (fetch s).2.cfg = s.cfg := by simp [fetch_eq]

theorem fetch_wf {s : State} (h : s.mem.wf) : (fetch s).2.mem.wf := by
  rw [fetch_eq, setPc_mem]
  exact memRead_wf _ h

/-! ### Reading one kind of answer -/

/-- Whatever a poll keeps in the environment, a read keeps. -/
theorem memRead_env_cases (a : Word) (s : State) :
    (memRead a s).2.env = s.env ∨ (memRead a s).2.env = (kbdPoll s).2.env := by
  rcases memRead_cases a s with ⟨_, h⟩ | ⟨_, h⟩ <;> simp [h]

end Sys2Proof.Machine
end

