-- ==== Sys2Proof/Laws/Exec.lean ====
section
/-! SUPPORT. What an instruction can do, said once: it is a sequence of the shared operations, so whatever each of those
keeps, `exec` and `step` keep. -/

namespace Sys2Proof.Machine

/-- A property of states that the environment's calls, reads and stops keep. -/
structure KeptByConsole (P : State → Prop) : Prop where
  memRead : ∀ a s, P s → P (memRead a s).2
  conOut : ∀ b s, P s → P (conOut b s).2
  kbdGet : ∀ s, P s → P (kbdGet s).2
  raiseFatal : ∀ k info s, P s → P (raiseFatal k info s)
  haltNormally : ∀ s, P s → P (haltNormally s)

/-- A property of states that each shared operation keeps. -/
structure KeptByOps (P : State → Prop) : Prop extends KeptByConsole P where
  setReg : ∀ r v s, P s → P (s.setReg r v)
  setPc : ∀ a s, P s → P (s.setPc a)
  setCond : ∀ c s, P s → P (s.setCond c)
  memWrite : ∀ a v s, P s → P (memWrite a v s)

namespace KeptByConsole

variable {P : State → Prop} (h : KeptByConsole P)
include h

theorem conOutAll (bs : List Byte) {s : State} (hs : P s) : P (conOutAll bs s).2 :=
  conOutAll_keeps h.conOut bs hs

/-- A walk along a string keeps what its reads and writes keep. -/
theorem stringWalk {ends : Word → Bool} {bytes : Word → List Byte} (n : Nat) (a : Word) {s t : State} (hs : P s)
    (hw : stringWalk ends bytes n a s = .finished t ∨ stringWalk ends bytes n a s = .failed t) : P t := by
  induction n generalizing a s with
  | zero => simp [Machine.stringWalk] at hw
  | succ n ih =>
    have hr := h.memRead a s hs
    unfold Machine.stringWalk at hw
    dsimp only at hw
    split at hw
    · simp only [Walk.finished.injEq, reduceCtorEq, or_false] at hw
      exact hw ▸ hr
    · have ho := h.conOutAll (bytes (Machine.memRead a s).1) hr
      split at hw
      · rename_i s' hc
        rw [hc] at ho
        exact ih _ ho hw
      · rename_i s' hc
        rw [hc] at ho
        simp only [Walk.failed.injEq, reduceCtorEq, false_or] at hw
        exact hw ▸ ho

theorem endOfWalk {instr : Word} {w : Walk} {t : State} (hw : ∀ u, w = .finished u ∨ w = .failed u → P u)
    (he : endOfWalk instr w = .next t) : P t := by
  cases w with
  | finished u => exact Host.Outcome.next.inj he ▸ hw u (.inl rfl)
  | failed u => exact Host.Outcome.next.inj he ▸ h.raiseFatal _ _ _ (hw u (.inr rfl))
  | unfinished => cases he

/-- GETC ends with what the console calls keep, or by writing a byte to R0 after it. -/
theorem routineGetc {instr : Word} {s t : State} (hs : P s) (he : routineGetc instr s = .next t) :
    P t ∨ ∃ b u, P u ∧ t = writeResult 0 (zext16 b) u := by
  have hg := h.kbdGet s hs
  unfold Machine.routineGetc at he
  split at he <;> rename_i hk <;> simp only [hk, Host.Outcome.next.injEq, reduceCtorEq] at hg he <;> subst he
  · exact .inr ⟨_, _, hg, rfl⟩
  · exact .inl (h.raiseFatal _ _ _ hg)

theorem routineOut {instr : Word} {s t : State} (hs : P s) (he : routineOut instr s = .next t) : P t := by
  have ho := h.conOut (lowByte (s.reg 0)) s hs
  rw [← Host.Outcome.next.inj he]
  unfold orIOError
  split
  · exact ho
  · exact h.raiseFatal _ _ _ ho

theorem routinePuts {instr : Word} {s t : State} (hs : P s) (he : routinePuts instr s = .next t) : P t :=
  h.endOfWalk (fun _ hu => h.stringWalk _ _ hs hu) he

theorem routinePutsp {instr : Word} {s t : State} (hs : P s) (he : routinePutsp instr s = .next t) : P t :=
  h.endOfWalk (fun _ hu => h.stringWalk _ _ hs hu) he

/-- IN ends as GETC does. -/
theorem routineIn {instr : Word} {s t : State} (hs : P s) (he : routineIn instr s = .next t) :
    P t ∨ ∃ b u, P u ∧ t = writeResult 0 (zext16 b) u := by
  have h1 := h.conOutAll s.cfg.inPrompt hs
  unfold Machine.routineIn at he
  split at he
  · rename_i s1 hp
    rw [hp] at h1
    exact .inl (Host.Outcome.next.inj he ▸ h.raiseFatal _ _ _ h1)
  · rename_i s1 hp
    rw [hp] at h1
    have h2 := h.kbdGet s1 h1
    split at he
    · rename_i s2 hg
      rw [hg] at h2
      exact .inl (Host.Outcome.next.inj he ▸ h.raiseFatal _ _ _ h2)
    · cases he
    · rename_i b s2 hg
      rw [hg] at h2
      have h3 := h.conOut b s2 h2
      split at he
      · rename_i s3 ho
        rw [ho] at h3
        exact .inl (Host.Outcome.next.inj he ▸ h.raiseFatal _ _ _ h3)
      · rename_i s3 ho
        rw [ho] at h3
        exact .inr ⟨b, s3, h3, (Host.Outcome.next.inj he).symm⟩

theorem routineHalt {instr : Word} {s t : State} (hs : P s) (he : routineHalt instr s = .next t) : P t := by
  have h1 := h.conOutAll s.cfg.haltNotice hs
  unfold Machine.routineHalt at he
  split at he <;> rename_i hk <;> simp only [hk, Host.Outcome.next.injEq] at h1 he <;> subst he
  · exact h.haltNormally _ h1
  · exact h.raiseFatal _ _ _ h1

theorem routineIllegal {instr : Word} {s t : State} (hs : P s) (he : routineIllegal instr s = .next t) : P t :=
  Host.Outcome.next.inj he ▸ h.raiseFatal _ _ _ hs

/-- A TRAP ends with what the console calls keep, or, for the vectors of GETC and IN, by writing a byte to R0 after
it. -/
theorem trapDispatch {instr : Word} {s t : State} (hs : P s) (he : trapDispatch instr s = .next t) :
    P t ∨ ((lowByte instr = 0x20 ∨ lowByte instr = 0x23) ∧ ∃ b u, P u ∧ t = writeResult 0 (zext16 b) u) := by
  unfold Machine.trapDispatch at he
  split at he
  · rename_i hv
    exact (h.routineGetc hs he).imp id fun r => ⟨.inl (BitVec.eq_of_toNat_eq hv), r⟩
  · exact .inl (h.routineOut hs he)
  · exact .inl (h.routinePuts hs he)
  · rename_i hv
    exact (h.routineIn hs he).imp id fun r => ⟨.inr (BitVec.eq_of_toNat_eq hv), r⟩
  · exact .inl (h.routinePutsp hs he)
  · exact .inl (h.routineHalt hs he)
  · exact .inl (h.routineIllegal hs he)

end KeptByConsole

/-! ### The forms of the TRAP rows -/

theorem lowByte_encode_trap (x : BitVec 4) (v : Byte) : lowByte (encode (.trap x v)) = v := by
  apply BitVec.eq_of_getLsbD_eq
  intro i hi
  simp only [lowByte, encode, BitVec.getLsbD_extractLsb', hi, decide_true, Bool.true_and, Nat.zero_add]
  rw [BitVec.getLsbD_append]
  simp [hi]

theorem lowByte_encode_trapIllegal (v : Byte) : lowByte (encode (.trapIllegal v)) = v := lowByte_encode_trap 0 v

/-- The vector of a TRAP instruction is the low byte of its word (R130). -/
theorem vector_eq_lowByte {i : Instr} {v : Byte} (h : i.vector = some v) : lowByte (encode i) = v := by
  cases i <;> simp only [Instr.vector, Option.some.injEq, reduceCtorEq] at h <;> subst h <;>
    first | rfl | exact lowByte_encode_trap _ _

/-- An IOError of a TRAP instruction records what R132 says. -/
theorem raiseIOError_encode {i : Instr} {v : Byte} (h : i.vector = some v) {s t : State} (hpc : t.pc = s.pc) :
    raiseIOError (encode i) t = raiseFatal .ioError (ioErrorInfo i s) t := by
  simp [raiseIOError, ioErrorInfo, vector_eq_lowByte h, h, hpc]

/-- Every well-formed TRAP instruction, under its own row or the general one, is the dispatch on its word (R130). -/
theorem exec_trapDispatch {i : Instr} {v : Byte} (h : i.vector = some v) (hw : i.wf = true) (s : State) :
    exec i s = trapDispatch (encode i) s := by
  cases i <;> simp only [Instr.vector, Option.some.injEq, reduceCtorEq] at h <;> try rfl
  subst h
  rename_i u
  have hl := lowByte_encode_trapIllegal u
  have hr : u.toNat < 0x20 ∨ 0x25 < u.toNat := by simpa [Instr.wf, recognisedVector, BitVec.le_def, BitVec.lt_def] using hw
  show routineIllegal _ s = _
  unfold trapDispatch
  rw [hl]
  split <;> first | rfl | omega

theorem exec_getc_forms {i : Instr} (h : i = .getc ∨ ∃ x, i = .trap x 0x20) (s : State) :
    exec i s = routineGetc (encode i) s := by
  obtain rfl | ⟨x, rfl⟩ := h
  · rfl
  · simp [exec, execTrap, trapDispatch, lowByte_encode_trap]

theorem exec_out_forms {i : Instr} (h : i = .out ∨ ∃ x, i = .trap x 0x21) (s : State) :
    exec i s = routineOut (encode i) s := by
  obtain rfl | ⟨x, rfl⟩ := h
  · rfl
  · simp [exec, execTrap, trapDispatch, lowByte_encode_trap]

theorem exec_puts_forms {i : Instr} (h : i = .puts ∨ ∃ x, i = .trap x 0x22) (s : State) :
    exec i s = routinePuts (encode i) s := by
  obtain rfl | ⟨x, rfl⟩ := h
  · rfl
  · simp [exec, execTrap, trapDispatch, lowByte_encode_trap]

theorem exec_in_forms {i : Instr} (h : i = .inp ∨ ∃ x, i = .trap x 0x23) (s : State) :
    exec i s = routineIn (encode i) s := by
  obtain rfl | ⟨x, rfl⟩ := h
  · rfl
  · simp [exec, execTrap, trapDispatch, lowByte_encode_trap]

theorem exec_putsp_forms {i : Instr} (h : i = .putsp ∨ ∃ x, i = .trap x 0x24) (s : State) :
    exec i s = routinePutsp (encode i) s := by
  obtain rfl | ⟨x, rfl⟩ := h
  · rfl
  · simp [exec, execTrap, trapDispatch, lowByte_encode_trap]

theorem exec_halt_forms {i : Instr} (h : i = .halt ∨ ∃ x, i = .trap x 0x25) (s : State) :
    exec i s = routineHalt (encode i) s := by
  obtain rfl | ⟨x, rfl⟩ := h
  · rfl
  · simp [exec, execTrap, trapDispatch, lowByte_encode_trap]

/-! ### Every instruction -/

namespace KeptByOps

variable {P : State → Prop} (h : KeptByOps P)
include h

theorem writeResult (r : RegIdx) (v : Word) {s : State} (hs : P s) : P (writeResult r v s) :=
  h.setCond _ _ (h.setReg _ _ _ hs)

theorem loadInto (r : RegIdx) (ea : Word) {s : State} (hs : P s) : P (loadInto r ea s) :=
  h.writeResult _ _ (h.memRead _ _ hs)

theorem trapDispatch {instr : Word} {s t : State} (hs : P s) (he : trapDispatch instr s = .next t) : P t := by
  rcases h.toKeptByConsole.trapDispatch hs he with ht | ⟨-, b, u, hu, rfl⟩
  · exact ht
  · exact h.writeResult _ _ hu

/-- Whatever the shared operations keep, every instruction keeps. -/
theorem exec {i : Instr} {s t : State} (hs : P s) (he : exec i s = .next t) : P t := by
  cases i with
  | add dr sr1 x sr2 => exact Host.Outcome.next.inj he ▸ h.writeResult _ _ hs
  | addi dr sr1 imm5 => exact Host.Outcome.next.inj he ▸ h.writeResult _ _ hs
  | and dr sr1 x sr2 => exact Host.Outcome.next.inj he ▸ h.writeResult _ _ hs
  | andi dr sr1 imm5 => exact Host.Outcome.next.inj he ▸ h.writeResult _ _ hs
  | not dr sr x => exact Host.Outcome.next.inj he ▸ h.writeResult _ _ hs
  | br n z p off =>
    rw [← Host.Outcome.next.inj he]
    split
    · exact h.setPc _ _ hs
    · exact hs
  | jmp hi base lo => exact Host.Outcome.next.inj he ▸ h.setPc _ _ hs
  | ret x => exact Host.Outcome.next.inj he ▸ h.setPc _ _ hs
  | jsr off => exact Host.Outcome.next.inj he ▸ h.setPc _ _ (h.setReg _ _ _ hs)
  | jsrr hi base lo => exact Host.Outcome.next.inj he ▸ h.setPc _ _ (h.setReg _ _ _ hs)
  | ld dr off => exact Host.Outcome.next.inj he ▸ h.loadInto _ _ hs
  | ldi dr off => exact Host.Outcome.next.inj he ▸ h.loadInto _ _ (h.memRead _ _ hs)
  | ldr dr base off => exact Host.Outcome.next.inj he ▸ h.loadInto _ _ hs
  | lea dr off => exact Host.Outcome.next.inj he ▸ h.writeResult _ _ hs
  | st sr off => exact Host.Outcome.next.inj he ▸ h.memWrite _ _ _ hs
  | sti sr off => exact Host.Outcome.next.inj he ▸ h.memWrite _ _ _ (h.memRead _ _ hs)
  | str sr base off => exact Host.Outcome.next.inj he ▸ h.memWrite _ _ _ hs
  | trap x v => exact h.trapDispatch hs he
  | getc => exact h.trapDispatch (instr := encode .getc) hs he
  | out => exact h.trapDispatch (instr := encode .out) hs he
  | puts => exact h.trapDispatch (instr := encode .puts) hs he
  | inp => exact h.trapDispatch (instr := encode .inp) hs he
  | putsp => exact h.trapDispatch (instr := encode .putsp) hs he
  | halt => exact h.trapDispatch (instr := encode .halt) hs he
  | trapIllegal v => exact h.toKeptByConsole.routineIllegal hs he
  | rti x => exact Host.Outcome.next.inj he ▸ h.raiseFatal _ _ _ hs
  | res x => exact Host.Outcome.next.inj he ▸ h.raiseFatal _ _ _ hs

end KeptByOps

/-! ### The step -/

/-- A running core's step is the fetch and the meaning of the word fetched (R63). -/
theorem step_running {s : State} (h : s.run = .running) : step s = exec (decode (fetch s).1) (fetch s).2 := by
  simp [step, h]

/-- A HALTED core has no step (R60). -/
theorem step_halted {s : State} (h : s.run = .halted) : step s = .fault .halted := by
  simp [step, h]

/-- What a step with a next state is. -/
theorem step_next {s t : State} (h : step s = .next t) :
    s.run = .running ∧ exec (decode (fetch s).1) (fetch s).2 = .next t := by
  cases hr : s.run
  · exact ⟨rfl, step_running hr ▸ h⟩
  · rw [step_halted hr] at h
    cases h

/-- Whatever the shared operations keep, every step keeps. -/
theorem KeptByOps.step {P : State → Prop} (h : KeptByOps P) {s t : State} (hs : P s) (he : step s = .next t) : P t :=
  h.exec (h.setPc _ _ (h.memRead _ _ hs)) (step_next he).2

end Sys2Proof.Machine
end

