-- ==== Sys2Proof/Laws/PerInstr.lean ====
section
/-! SUPPORT. One lemma per constructor of Instr: the word of an instruction lies in its row of the opcode table, that
is, under the row's mask it is the row's match (R67, spec/opcode_table.json). -/

namespace Sys2Proof.Laws.EncodesItsRow

/-- The "match" and "mask" of an instruction's row of spec/opcode_table.json. -/
def row : Instr → Word × Word
  | .add _ _ _ _ => (0x1000, 0xF020)
  | .addi _ _ _ => (0x1020, 0xF020)
  | .and _ _ _ _ => (0x5000, 0xF020)
  | .andi _ _ _ => (0x5020, 0xF020)
  | .not _ _ _ => (0x9000, 0xF000)
  | .br _ _ _ _ => (0x0000, 0xF000)
  | .jmp _ _ _ => (0xC000, 0xF000)
  | .ret _ => (0xC1C0, 0xFFC0)
  | .jsr _ => (0x4800, 0xF800)
  | .jsrr _ _ _ => (0x4000, 0xF800)
  | .ld _ _ => (0x2000, 0xF000)
  | .ldi _ _ => (0xA000, 0xF000)
  | .ldr _ _ _ => (0x6000, 0xF000)
  | .lea _ _ => (0xE000, 0xF000)
  | .st _ _ => (0x3000, 0xF000)
  | .sti _ _ => (0xB000, 0xF000)
  | .str _ _ _ => (0x7000, 0xF000)
  | .trap _ _ => (0xF000, 0xF000)
  | .getc => (0xF020, 0xF0FF)
  | .out => (0xF021, 0xF0FF)
  | .puts => (0xF022, 0xF0FF)
  | .inp => (0xF023, 0xF0FF)
  | .putsp => (0xF024, 0xF0FF)
  | .halt => (0xF025, 0xF0FF)
  | .trapIllegal _ => (0xF000, 0xF000)
  | .rti _ => (0x8000, 0xF000)
  | .res _ => (0xD000, 0xF000)

/-- The word of the instruction lies in its row. -/
def Statement (i : Instr) : Prop := encode i &&& (row i).2 = (row i).1

/-- Two words are equal where their bits are. -/
theorem eq_of_bits {v w : Word} (h : ∀ i : Fin 16, v.getLsbD i = w.getLsbD i) : v = w :=
  BitVec.eq_of_getLsbD_eq fun i hi => h ⟨i, hi⟩

theorem add (dr sr1 : RegIdx) (x : BitVec 2) (sr2 : RegIdx) : Statement (.add dr sr1 x sr2) := eq_of_bits fun i => by
  fin_cases i <;> simp only [encode, row, BitVec.getLsbD_and] <;> (repeat rw [BitVec.getLsbD_append]) <;> simp

theorem addi (dr sr1 : RegIdx) (imm5 : BitVec 5) : Statement (.addi dr sr1 imm5) := eq_of_bits fun i => by
  fin_cases i <;> simp only [encode, row, BitVec.getLsbD_and] <;> (repeat rw [BitVec.getLsbD_append]) <;> simp

theorem and (dr sr1 : RegIdx) (x : BitVec 2) (sr2 : RegIdx) : Statement (.and dr sr1 x sr2) := eq_of_bits fun i => by
  fin_cases i <;> simp only [encode, row, BitVec.getLsbD_and] <;> (repeat rw [BitVec.getLsbD_append]) <;> simp

theorem andi (dr sr1 : RegIdx) (imm5 : BitVec 5) : Statement (.andi dr sr1 imm5) := eq_of_bits fun i => by
  fin_cases i <;> simp only [encode, row, BitVec.getLsbD_and] <;> (repeat rw [BitVec.getLsbD_append]) <;> simp

theorem not (dr sr : RegIdx) (x : BitVec 6) : Statement (.not dr sr x) := eq_of_bits fun i => by
  fin_cases i <;> simp only [encode, row, BitVec.getLsbD_and] <;> (repeat rw [BitVec.getLsbD_append]) <;> simp

theorem br (n z p : Bool) (off : BitVec 9) : Statement (.br n z p off) := eq_of_bits fun i => by
  fin_cases i <;> simp only [encode, row, BitVec.getLsbD_and] <;> (repeat rw [BitVec.getLsbD_append]) <;> simp

theorem jmp (hi : BitVec 3) (base : RegIdx) (lo : BitVec 6) : Statement (.jmp hi base lo) := eq_of_bits fun i => by
  fin_cases i <;> simp only [encode, row, BitVec.getLsbD_and] <;> (repeat rw [BitVec.getLsbD_append]) <;> simp

theorem ret (x : BitVec 6) : Statement (.ret x) := eq_of_bits fun i => by
  fin_cases i <;> simp only [encode, row, BitVec.getLsbD_and] <;> (repeat rw [BitVec.getLsbD_append]) <;> simp

theorem jsr (off : BitVec 11) : Statement (.jsr off) := eq_of_bits fun i => by
  fin_cases i <;> simp only [encode, row, BitVec.getLsbD_and] <;> (repeat rw [BitVec.getLsbD_append]) <;> simp

theorem jsrr (hi : BitVec 2) (base : RegIdx) (lo : BitVec 6) : Statement (.jsrr hi base lo) := eq_of_bits fun i => by
  fin_cases i <;> simp only [encode, row, BitVec.getLsbD_and] <;> (repeat rw [BitVec.getLsbD_append]) <;> simp

theorem ld (dr : RegIdx) (off : BitVec 9) : Statement (.ld dr off) := eq_of_bits fun i => by
  fin_cases i <;> simp only [encode, row, BitVec.getLsbD_and] <;> (repeat rw [BitVec.getLsbD_append]) <;> simp

theorem ldi (dr : RegIdx) (off : BitVec 9) : Statement (.ldi dr off) := eq_of_bits fun i => by
  fin_cases i <;> simp only [encode, row, BitVec.getLsbD_and] <;> (repeat rw [BitVec.getLsbD_append]) <;> simp

theorem ldr (dr base : RegIdx) (off : BitVec 6) : Statement (.ldr dr base off) := eq_of_bits fun i => by
  fin_cases i <;> simp only [encode, row, BitVec.getLsbD_and] <;> (repeat rw [BitVec.getLsbD_append]) <;> simp

theorem lea (dr : RegIdx) (off : BitVec 9) : Statement (.lea dr off) := eq_of_bits fun i => by
  fin_cases i <;> simp only [encode, row, BitVec.getLsbD_and] <;> (repeat rw [BitVec.getLsbD_append]) <;> simp

theorem st (sr : RegIdx) (off : BitVec 9) : Statement (.st sr off) := eq_of_bits fun i => by
  fin_cases i <;> simp only [encode, row, BitVec.getLsbD_and] <;> (repeat rw [BitVec.getLsbD_append]) <;> simp

theorem sti (sr : RegIdx) (off : BitVec 9) : Statement (.sti sr off) := eq_of_bits fun i => by
  fin_cases i <;> simp only [encode, row, BitVec.getLsbD_and] <;> (repeat rw [BitVec.getLsbD_append]) <;> simp

theorem str (sr base : RegIdx) (off : BitVec 6) : Statement (.str sr base off) := eq_of_bits fun i => by
  fin_cases i <;> simp only [encode, row, BitVec.getLsbD_and] <;> (repeat rw [BitVec.getLsbD_append]) <;> simp

theorem trap (x : BitVec 4) (v : Byte) : Statement (.trap x v) := eq_of_bits fun i => by
  fin_cases i <;> simp only [encode, row, BitVec.getLsbD_and] <;> (repeat rw [BitVec.getLsbD_append]) <;> simp

theorem getc : Statement .getc := rfl

theorem out : Statement .out := rfl

theorem puts : Statement .puts := rfl

theorem inp : Statement .inp := rfl

theorem putsp : Statement .putsp := rfl

theorem halt : Statement .halt := rfl

theorem trapIllegal (v : Byte) : Statement (.trapIllegal v) := eq_of_bits fun i => by
  fin_cases i <;> simp only [encode, row, BitVec.getLsbD_and] <;> (repeat rw [BitVec.getLsbD_append]) <;> simp

theorem rti (x : BitVec 12) : Statement (.rti x) := eq_of_bits fun i => by
  fin_cases i <;> simp only [encode, row, BitVec.getLsbD_and] <;> (repeat rw [BitVec.getLsbD_append]) <;> simp

theorem res (x : BitVec 12) : Statement (.res x) := eq_of_bits fun i => by
  fin_cases i <;> simp only [encode, row, BitVec.getLsbD_and] <;> (repeat rw [BitVec.getLsbD_append]) <;> simp

end Sys2Proof.Laws.EncodesItsRow
end

