-- ==== Sys2Proof/Laws/Walk.lean ====
section
/-! SUPPORT. The walks of PUTS and PUTSP: a walk that has met no end within `walkBound` words never meets one, so the
verdict "never ends" of the meanings is right (I9). -/

namespace Sys2Proof.Machine

/-! ### Console writes and the environment -/

theorem conOutAll_env (bs : List Byte) (s : State) :
    (conOutAll bs s).2.env.input = s.env.input ∧ (conOutAll bs s).2.env.pollReady = s.env.pollReady ∧
    (conOutAll bs s).2.env.writeFails.coming.length ≤ s.env.writeFails.coming.length := by
  refine conOutAll_keeps (P := fun t => t.env.input = s.env.input ∧ t.env.pollReady = s.env.pollReady ∧
    t.env.writeFails.coming.length ≤ s.env.writeFails.coming.length) ?_ bs ⟨rfl, rfl, le_rfl⟩
  intro b u ⟨h1, h2, h3⟩
  have h4 : u.env.writeFails.advance.coming.length ≤ u.env.writeFails.coming.length := by simp [Choices.advance]
  rcases conOut_cases b u with ⟨_, h⟩ | ⟨_, h⟩ <;> rw [h] <;> exact ⟨h1, h2, h4.trans h3⟩

/-- A word that writes anything uses up a listed answer. -/
theorem conOutAll_consumes {bs : List Byte} (hb : bs ≠ []) (s : State) :
    (conOutAll bs s).2.env.writeFails.coming.length ≤ s.env.writeFails.coming.length - 1 := by
  cases bs with
  | nil => exact absurd rfl hb
  | cons b bs =>
    have h1 : (conOut b s).2.env.writeFails.coming.length = s.env.writeFails.coming.length - 1 := by
      rcases conOut_cases b s with ⟨_, h⟩ | ⟨_, h⟩ <;> simp [h, Env.afterWrites, Choices.advance]
    unfold conOutAll
    split <;> rename_i hc <;> rw [hc] at h1
    · exact h1 ▸ (conOutAll_env bs _).2.2
    · exact h1.le

/-! ### A walk as a sequence of states -/

/-- The state of a walk from address `a` after `k` words. -/
def walkState (bytes : Word → List Byte) (a : Word) (s : State) : Nat → State
  | 0 => s
  | k + 1 =>
    let r := memRead (a + BitVec.ofNat 16 k) (walkState bytes a s k)
    (conOutAll (bytes r.1) r.2).2

/-- Word `k` of a walk is no terminator and its writes are accepted. -/
def goesOn (ends : Word → Bool) (bytes : Word → List Byte) (a : Word) (s : State) (k : Nat) : Prop :=
  ends (memRead (a + BitVec.ofNat 16 k) (walkState bytes a s k)).1 = false ∧
  (conOutAll (bytes (memRead (a + BitVec.ofNat 16 k) (walkState bytes a s k)).1)
    (memRead (a + BitVec.ofNat 16 k) (walkState bytes a s k)).2).1 = true

theorem addr_succ (a : Word) (k : Nat) : a + 1 + BitVec.ofNat 16 k = a + BitVec.ofNat 16 (k + 1) := by
  rw [BitVec.ofNat_add, BitVec.add_assoc, BitVec.add_comm 1]
  rfl

theorem walkState_shift (bytes : Word → List Byte) (a : Word) (s : State) (k : Nat) :
    walkState bytes (a + 1) (walkState bytes a s 1) k = walkState bytes a s (k + 1) := by
  induction k with
  | zero => rfl
  | succ k ih =>
    rw [walkState, ih, addr_succ]
    rfl

theorem stringWalk_unfinished_iff (ends : Word → Bool) (bytes : Word → List Byte) (n : Nat) (a : Word) (s : State) :
    stringWalk ends bytes n a s = .unfinished ↔ ∀ k < n, goesOn ends bytes a s k := by
  induction n generalizing a s with
  | zero => simp [stringWalk]
  | succ n ih =>
    have shift : (∀ k < n + 1, goesOn ends bytes a s k) ↔
        goesOn ends bytes a s 0 ∧ ∀ k < n, goesOn ends bytes (a + 1) (walkState bytes a s 1) k := by
      simp only [goesOn, walkState_shift, addr_succ]
      constructor
      · exact fun h => ⟨h 0 (by omega), fun k hk => h (k + 1) (by omega)⟩
      · rintro ⟨h0, h⟩ k hk
        cases k with
        | zero => exact h0
        | succ k => exact h k (by omega)
    have h0 : (a + BitVec.ofNat 16 0 : Word) = a := by simp
    rw [shift, ← ih]
    simp only [goesOn, walkState, h0]
    rw [stringWalk]
    cases he : ends (memRead a s).1
    · cases hc : conOutAll (bytes (memRead a s).1) (memRead a s).2 with
      | mk ok t => cases ok <;> simp
    · simp

/-! ### The steady state -/

/-- Nothing a walk meets from here on changes: no listed answer or byte is left, every poll brings byte `b` and every
write is accepted, KBDR holds `b`, and every plain cell holds what `g` says. -/
structure Steady (c : Config) (g : Word → Word) (b : Byte) (u : State) : Prop where
  input : u.env.input = []
  tail : u.env.tail = .endless b
  ready : u.env.pollReady = ⟨[], true⟩
  writes : u.env.writeFails = ⟨[], false⟩
  cfg : u.cfg = c
  kbdr : u.store c.kbdrAddr = zext16 b
  plain : ∀ x, x ≠ c.kbsrAddr → x ≠ c.kbdrAddr → u.store x = g x

/-- What a read answers in the steady state. -/
def steadyWord (c : Config) (g : Word → Word) (b : Byte) (x : Word) : Word :=
  if x = c.kbdrAddr then zext16 b else if x = c.kbsrAddr then kbsrReady else g x

theorem kbdPoll_endless {u : State} {b : Byte} (hi : u.env.input = []) (ht : u.env.tail = .endless b)
    (hr : u.env.pollReady = ⟨[], true⟩) : kbdPoll u = (some b, u) := by
  obtain ⟨regs, pc, cond, mem, run, stop, out, cfg, ⟨input, tail, pr, rf, wf⟩⟩ := u
  simp only at hi ht hr
  subst hi ht hr
  rfl

/-- The state after a poll that found byte `b`, as cells. -/
theorem pollKeyboard_store {s : State} {b : Byte} (h : (kbdPoll s).1 = some b) (x : Word) :
    (pollKeyboard s).store x =
      if x = s.cfg.kbdrAddr then zext16 b else if x = s.cfg.kbsrAddr then kbsrReady else s.store x := by
  have hs : (kbdPoll s).2.store x = s.store x := by simp [State.store]
  rcases pollKeyboard_cases s with ⟨b', h1, h2⟩ | ⟨h1, _⟩
  · obtain rfl : b = b' := by simpa [h] using h1
    rw [h2]
    split
    · subst x; rw [setStore_store_same]
    · rw [setStore_store_other _ _ ‹_›]
      split
      · subst x; rw [setStore_store_same]
      · rw [setStore_store_other _ _ ‹_›, hs]
  · simp [h] at h1

theorem Steady.read {c : Config} {g : Word → Word} {b : Byte} {u : State} (h : Steady c g b u) (x : Word) :
    (memRead x u).1 = steadyWord c g b x ∧ Steady c g b (memRead x u).2 := by
  have hp := kbdPoll_endless h.input h.tail h.ready
  rcases memRead_cases x u with ⟨hx, hm⟩ | ⟨hx, hm⟩ <;> rw [hm]
  · refine ⟨?_, h⟩
    rw [h.cfg] at hx
    unfold steadyWord
    by_cases hk : x = c.kbdrAddr
    · rw [if_pos hk, hk]; exact h.kbdr
    · rw [if_neg hk, if_neg hx]; exact h.plain x hx hk
  · have hst := pollKeyboard_store (congrArg Prod.fst hp)
    have henv : (pollKeyboard u).env = u.env := by rw [pollKeyboard_env, hp]
    rw [h.cfg] at hst
    refine ⟨?_, ⟨henv ▸ h.input, henv ▸ h.tail, henv ▸ h.ready, henv ▸ h.writes, by simp [h.cfg], ?_, fun y h1 h2 => ?_⟩⟩
    · rw [hst, steadyWord]
      split
      · rfl
      · rw [if_pos (by rw [hx, h.cfg]), if_pos (by rw [hx, h.cfg])]
    · rw [hst, if_pos rfl]
    · rw [hst, if_neg h2, if_neg h1]; exact h.plain y h1 h2

theorem Steady.write {c : Config} {g : Word → Word} {b : Byte} {u : State} (h : Steady c g b u) (bs : List Byte) :
    (conOutAll bs u).1 = true ∧ Steady c g b (conOutAll bs u).2 := by
  induction bs generalizing u with
  | nil => exact ⟨rfl, h⟩
  | cons d bs ih =>
    have hc := conOut_accepted d u (by rw [h.writes]; rfl)
    have h' : Steady c g b { u with env := u.env.afterWrites 1, out := u.out ++ [d] } :=
      ⟨h.input, h.tail, h.ready, by simp [Env.afterWrites, h.writes], h.cfg, h.kbdr, h.plain⟩
    simp only [conOutAll, hc]
    exact ih h'

variable {ends : Word → Bool} {bytes : Word → List Byte} {a : Word} {s : State}

theorem Steady.walk {c : Config} {g : Word → Word} {b : Byte} {t : Nat} (h : Steady c g b (walkState bytes a s t))
    (k : Nat) : Steady c g b (walkState bytes a s (t + k)) := by
  induction k with
  | zero => exact h
  | succ k ih => exact ((ih.read _).2.write _).2

/-- In the steady state a walk goes on at a word exactly where the word there is no terminator. -/
theorem Steady.goesOn_iff {c : Config} {g : Word → Word} {b : Byte} {k : Nat}
    (h : Steady c g b (walkState bytes a s k)) :
    goesOn ends bytes a s k ↔ ends (steadyWord c g b (a + BitVec.ofNat 16 k)) = false := by
  have hr := h.read (a + BitVec.ofNat 16 k)
  simp [goesOn, hr.1, (hr.2.write _).1]

/-- A walk that goes on for one whole lap in the steady state goes on for ever. -/
theorem Steady.forever {c : Config} {g : Word → Word} {b : Byte} {t : Nat} (h : Steady c g b (walkState bytes a s t))
    (hw : ∀ k < t + 65536, goesOn ends bytes a s k) (k : Nat) : goesOn ends bytes a s k := by
  by_cases hk : k < t + 65536
  · exact hw k hk
  · obtain ⟨d, rfl⟩ : ∃ d, k = t + d := ⟨k - t, by omega⟩
    have hd : (a + BitVec.ofNat 16 (t + d) : Word) = a + BitVec.ofNat 16 (t + d % 65536) := by
      congr 1
      apply BitVec.eq_of_toNat_eq
      simp only [BitVec.toNat_ofNat]
      omega
    have h1 := (h.walk (d % 65536)).goesOn_iff.mp (hw (t + d % 65536) (by omega))
    exact (h.walk d).goesOn_iff.mpr (hd ▸ h1)

/-! ### Every walk that goes on reaches the steady state -/

/-- How many of the first `k` words of a walk are read at KBSR_ADDR. -/
def pollCount (a kbsr : Word) : Nat → Nat
  | 0 => 0
  | k + 1 => pollCount a kbsr k + if a + BitVec.ofNat 16 k = kbsr then 1 else 0

theorem pollCount_mono (a kbsr : Word) (k d : Nat) : pollCount a kbsr k ≤ pollCount a kbsr (k + d) := by
  induction d with
  | zero => exact le_rfl
  | succ d ih => exact ih.trans (Nat.le_add_right _ _)

/-- Each lap reads KBSR_ADDR. -/
theorem lap_reads_kbsr (a kbsr : Word) (k : Nat) : ∃ i, i < 65536 ∧ a + BitVec.ofNat 16 (k + i) = kbsr := by
  refine ⟨(kbsr - a - BitVec.ofNat 16 k).toNat, (kbsr - a - BitVec.ofNat 16 k).isLt, ?_⟩
  rw [BitVec.ofNat_add, BitVec.ofNat_toNat, BitVec.setWidth_eq]
  ring

theorem le_pollCount (a kbsr : Word) (j : Nat) : j ≤ pollCount a kbsr (65536 * j) := by
  induction j with
  | zero => exact Nat.zero_le _
  | succ j ih =>
    obtain ⟨i, hi, ha⟩ := lap_reads_kbsr a kbsr (65536 * j)
    have h1 := pollCount_mono a kbsr (65536 * j) i
    have h2 : pollCount a kbsr (65536 * j + i + 1) = pollCount a kbsr (65536 * j + i) + 1 := by
      simp only [pollCount, ha, if_true]
    have h3 := pollCount_mono a kbsr (65536 * j + i + 1) (65536 - i - 1)
    rw [show 65536 * j + i + 1 + (65536 - i - 1) = 65536 * (j + 1) by omega] at h3
    omega

/-- What a walk that goes on for `k` words has used up. -/
structure UsedUp (s : State) (a : Word) (k : Nat) (u : State) : Prop where
  input : u.env.input.length ≤ s.env.input.length - pollCount a s.cfg.kbsrAddr k
  ready : u.env.pollReady.coming.length ≤ s.env.pollReady.coming.length - pollCount a s.cfg.kbsrAddr k
  writes : u.env.writeFails.coming.length ≤ s.env.writeFails.coming.length - k
  cfg : u.cfg = s.cfg
  plain : ∀ x, x ≠ s.cfg.kbsrAddr → x ≠ s.cfg.kbdrAddr → u.store x = s.store x

/-- A poll whose word does not end the walk found a byte. -/
theorem poll_finds_byte (he : ends 0x0000 = true) {x : Word} {u : State} (hx : x = u.cfg.kbsrAddr)
    (hg : ends (memRead x u).1 = false) : ∃ b, (kbdPoll u).1 = some b := by
  rcases pollKeyboard_cases u with ⟨b, h, _⟩ | ⟨_, h⟩
  · exact ⟨b, h⟩
  · subst x
    rw [memRead_kbsr, h, setStore_store_same, he] at hg
    cases hg

/-- What a poll that found a byte uses up. -/
theorem kbdPoll_uses {u : State} {b : Byte} (h : (kbdPoll u).1 = some b) :
    (kbdPoll u).2.env.input.length = u.env.input.length - 1 ∧
    (kbdPoll u).2.env.pollReady = u.env.pollReady.advance ∧ (kbdPoll u).2.env.writeFails = u.env.writeFails ∧
    (kbdPoll u).2.env.tail = u.env.tail ∧ u.env.pollReady.answer = true ∧
    (u.env.input = [] → u.env.tail = .endless b) := by
  obtain ⟨regs, pc, cond, mem, run, stop, out, cfg, ⟨input, tail, pr, rf, wf⟩⟩ := u
  cases ha : pr.answer <;> cases input <;> cases tail <;> simp_all [kbdPoll, Env.takeByte]

theorem usedUp (he : ends 0x0000 = true) (hb : ∀ w, bytes w ≠ []) (n : Nat)
    (hw : ∀ k < n, goesOn ends bytes a s k) : UsedUp s a n (walkState bytes a s n) := by
  induction n with
  | zero => exact ⟨le_rfl, le_rfl, le_rfl, rfl, fun _ _ _ => rfl⟩
  | succ n ih =>
    have hu := ih fun k hk => hw k (by omega)
    have hg := (hw n (by omega)).1
    rw [walkState]
    generalize walkState bytes a s n = u at hu hg ⊢
    generalize hx : a + BitVec.ofNat 16 n = x at hg ⊢
    have hcon := conOutAll_env (bytes (memRead x u).1) (memRead x u).2
    have hcons := conOutAll_consumes (hb (memRead x u).1) (memRead x u).2
    have hplain : ∀ y, y ≠ s.cfg.kbsrAddr → y ≠ s.cfg.kbdrAddr →
        (conOutAll (bytes (memRead x u).1) (memRead x u).2).2.store y = s.store y := by
      intro y h1 h2
      rw [← hu.plain y h1 h2, ← memRead_store_other x u (hu.cfg ▸ h1) (hu.cfg ▸ h2)]
      simp [State.store]
    have hcfg : (conOutAll (bytes (memRead x u).1) (memRead x u).2).2.cfg = s.cfg := by simp [hu.cfg]
    have hu1 := hu.input
    have hu2 := hu.ready
    have hu3 := hu.writes
    rcases memRead_cases x u with ⟨hne, hm⟩ | ⟨hx', hm⟩
    · rw [hm] at hcon hcons hplain hcfg ⊢
      have hpc : pollCount a s.cfg.kbsrAddr (n + 1) = pollCount a s.cfg.kbsrAddr n := by
        simp only [pollCount, hx]
        rw [if_neg (hu.cfg ▸ hne)]
        rfl
      refine ⟨?_, ?_, ?_, hcfg, hplain⟩
      · rw [hcon.1, hpc]; exact hu1
      · rw [hcon.2.1, hpc]; exact hu2
      · exact hcons.trans (by dsimp only; omega)
    · obtain ⟨b, hp⟩ := poll_finds_byte he hx' hg
      obtain ⟨h1, h2, h3, -⟩ := kbdPoll_uses hp
      rw [hm] at hcon hcons hplain hcfg ⊢
      dsimp only at hcon hcons ⊢
      rw [pollKeyboard_env] at hcon hcons
      have hpc : pollCount a s.cfg.kbsrAddr (n + 1) = pollCount a s.cfg.kbsrAddr n + 1 := by
        simp only [pollCount, hx]
        rw [if_pos (hu.cfg ▸ hx')]
      refine ⟨?_, ?_, ?_, hcfg, hplain⟩
      · rw [hcon.1, hpc]; omega
      · rw [hcon.2.1, hpc]
        have : u.env.pollReady.advance.coming.length = u.env.pollReady.coming.length - 1 := by simp [Choices.advance]
        rw [h2]
        omega
      · rw [h3] at hcons; omega

/-- A walk that has gone on for `walkBound` words goes on for ever. -/
theorem goesOn_forever (he : ends 0x0000 = true) (hb : ∀ w, bytes w ≠ [])
    (hw : ∀ k < walkBound s, goesOn ends bytes a s k) (k : Nat) : goesOn ends bytes a s k := by
  obtain ⟨L, hL⟩ : ∃ L, L = s.env.input.length + s.env.pollReady.coming.length + s.env.writeFails.coming.length :=
    ⟨_, rfl⟩
  have hB : walkBound s = 65536 * (L + 2) := by rw [walkBound, ← hL]
  rw [hB] at hw
  obtain ⟨i, hi, hx⟩ := lap_reads_kbsr a s.cfg.kbsrAddr (65536 * L)
  have hu := usedUp he hb (65536 * L + i) fun k hk => hw k (by omega)
  have hpc : L ≤ pollCount a s.cfg.kbsrAddr (65536 * L + i) :=
    (le_pollCount a _ L).trans (pollCount_mono _ _ _ _)
  obtain ⟨hg1, hg2⟩ := hw (65536 * L + i) (by omega)
  have hst : ∃ b, Steady s.cfg s.store b (walkState bytes a s (65536 * L + i + 1)) := by
    rw [walkState]
    generalize walkState bytes a s (65536 * L + i) = u at hu hg1 hg2 ⊢
    rw [hx] at hg1 hg2 ⊢
    have hi0 : u.env.input = [] := List.length_eq_zero_iff.mp (by have := hu.input; omega)
    have hr0 : u.env.pollReady.coming = [] := List.length_eq_zero_iff.mp (by have := hu.ready; omega)
    have hw0 : u.env.writeFails.coming = [] := List.length_eq_zero_iff.mp (by have := hu.writes; omega)
    obtain ⟨b, hp⟩ := poll_finds_byte he (by rw [hu.cfg]) hg1
    obtain ⟨-, h2, h3, h4, h5, h6⟩ := kbdPoll_uses hp
    have ht := h6 hi0
    have hready : u.env.pollReady = ⟨[], true⟩ := by
      revert hr0 h5
      cases u.env.pollReady with
      | mk c l => rintro rfl h; exact congrArg _ h
    have hpoll := kbdPoll_endless hi0 ht hready
    have hm : memRead s.cfg.kbsrAddr u = ((pollKeyboard u).store s.cfg.kbsrAddr, pollKeyboard u) := by
      rw [← hu.cfg]; exact memRead_kbsr u
    have henv : (pollKeyboard u).env = u.env := by rw [pollKeyboard_env, hpoll]
    have hwf : u.env.writeFails = ⟨[], false⟩ := by
      have : (pollKeyboard u).env.writeFails.answer = false := by
        rw [hm] at hg2
        dsimp only at hg2
        cases hbs : bytes ((pollKeyboard u).store s.cfg.kbsrAddr) with
        | nil => exact absurd hbs (hb _)
        | cons d ds =>
          rcases conOut_cases d (pollKeyboard u) with ⟨h, _⟩ | ⟨_, h⟩
          · exact h
          · simp [hbs, conOutAll, h] at hg2
      rw [henv] at this
      revert hw0 this
      cases u.env.writeFails with
      | mk c l => rintro rfl h; exact congrArg _ h
    have hpst := pollKeyboard_store hp
    rw [hu.cfg] at hpst
    have hsteady : Steady s.cfg s.store b (pollKeyboard u) := by
      refine ⟨by rw [henv]; exact hi0, by rw [henv]; exact ht, by rw [henv]; exact hready, by rw [henv]; exact hwf,
        by simp [hu.cfg], by rw [hpst, if_pos rfl], fun y h1 h2 => ?_⟩
      rw [hpst, if_neg h2, if_neg h1]
      exact hu.plain y h1 h2
    refine ⟨b, ?_⟩
    rw [hm]
    exact (hsteady.write _).2
  obtain ⟨b, hst⟩ := hst
  exact hst.forever (fun k hk => hw k (by omega)) k

/-- The verdict of the bounded walk is right: unfinished within `walkBound` words, it is unfinished within any number of
them (I9). -/
theorem stringWalk_bound (he : ends 0x0000 = true) (hb : ∀ w, bytes w ≠ [])
    (h : stringWalk ends bytes (walkBound s) a s = .unfinished) (n : Nat) : stringWalk ends bytes n a s = .unfinished :=
  (stringWalk_unfinished_iff _ _ _ _ _).mpr fun k _ =>
    goesOn_forever he hb ((stringWalk_unfinished_iff _ _ _ _ _).mp h) k

/-- More words change no walk that has ended. -/
theorem stringWalk_more {n : Nat} {w : Walk} (h : stringWalk ends bytes n a s = w) (hw : w ≠ .unfinished) (m : Nat) :
    stringWalk ends bytes (n + m) a s = w := by
  induction n generalizing a s with
  | zero => exact absurd h.symm hw
  | succ n ih =>
    rw [show n + 1 + m = (n + m) + 1 by omega]
    unfold stringWalk at h ⊢
    dsimp only at h ⊢
    split
    · rename_i hends
      rw [if_pos hends] at h
      exact h
    · rename_i hends
      rw [if_neg hends] at h
      split
      · rename_i s' hc
        rw [hc] at h
        exact ih h
      · rename_i s' hc
        rw [hc] at h
        exact h

/-- A walk that ends at all ends within `walkBound` words, in the same way. -/
theorem stringWalk_ends {n : Nat} {w : Walk} (he : ends 0x0000 = true) (hb : ∀ w, bytes w ≠ [])
    (h : stringWalk ends bytes n a s = w) (hw : w ≠ .unfinished) : stringWalk ends bytes (walkBound s) a s = w := by
  by_cases hu : stringWalk ends bytes (walkBound s) a s = .unfinished
  · exact absurd ((stringWalk_bound he hb hu n).symm.trans h).symm hw
  · rcases Nat.le_total n (walkBound s) with hle | hle
    · obtain ⟨m, hm⟩ := Nat.exists_eq_add_of_le hle
      rw [hm]
      exact stringWalk_more h hw m
    · obtain ⟨m, hm⟩ := Nat.exists_eq_add_of_le hle
      rw [hm, stringWalk_more rfl hu m] at h
      exact h

theorem putsEnds_zero : putsEnds 0x0000 = true := rfl
theorem putspEnds_zero : putspEnds 0x0000 = true := by decide
theorem putsBytes_ne (w : Word) : putsBytes w ≠ [] := by simp [putsBytes]
theorem putspBytes_ne (w : Word) : putspBytes w ≠ [] := by unfold putspBytes; split <;> simp


/-- A loop of R135 that ends is a walk that ends, at the same state. -/
theorem putsLoop_walk {a : Word} {s t : State} {r : Bool} (h : PutsLoop a s r t) :
    ∃ n, stringWalk putsEnds putsBytes n a s = if r then .finished t else .failed t := by
  induction h with
  | terminator hz => exact ⟨1, by simp [stringWalk, putsEnds, hz]⟩
  | @writeFails a s t hz hw =>
    have he : putsEnds (memRead a s).1 = false := by simpa [putsEnds] using hz
    exact ⟨1, by rw [stringWalk]; simp [he, putsBytes, conOutAll, hw]⟩
  | @goesOn a s s' t r hz hw _ ih =>
    obtain ⟨n, hn⟩ := ih
    have he : putsEnds (memRead a s).1 = false := by simpa [putsEnds] using hz
    exact ⟨n + 1, by rw [stringWalk]; simpa [he, putsBytes, conOutAll, hw] using hn⟩

end Sys2Proof.Machine
end

