-- ==== Sys2Proof/Laws/Run.lean ====
section
/-! SUPPORT. Runs (R175): what a run keeps and how it ends or hangs; that a polling loop ends where the polls are fair;
and that no hang inside one step is lost by the form in which State holds the environment. -/

namespace Sys2Proof.Machine

/-! ### Runs (R175) -/

theorem Env.MayBecome.refl (e : Env) : e.MayBecome e := ⟨List.prefix_rfl, fun h => ⟨rfl, h⟩⟩

/-- The environment's move keeps the invariant. -/
theorem State.EnvMay.inv {s t : State} (h : s.EnvMay t) (hi : s.Inv) : t.Inv := by
  obtain ⟨e, -, rfl⟩ := h
  exact hi

/-- The environment's move is seen in no observation. -/
theorem State.EnvMay.observation {s t : State} (h : s.EnvMay t) : t.observation = s.observation := by
  obtain ⟨e, -, rfl⟩ := h
  rfl

variable {r : Nat → Option State} {n : Nat} {s : State}

/-- A run is over after a HALTED state: nothing leaves HALTED (R28). -/
theorem IsRun.halted_last (h : IsRun r) (hs : r n = some s) (hh : s.run = .halted) : r (n + 1) = none :=
  h.last n s hs fun t ht => by rw [step_halted hh] at ht; cases ht

theorem IsRun.none_after (h : IsRun r) (hn : r n = none) (k : Nat) : r (n + k) = none := by
  induction k with
  | zero => exact hn
  | succ k ih => exact h.after _ ih

/-- A state of a run has a state before it, of which it is the next one after the environment's move. -/
theorem IsRun.pred (h : IsRun r) (hs : r (n + 1) = some s) :
    ∃ u t, r n = some u ∧ step u = .next t ∧ t.EnvMay s := by
  cases hn : r n with
  | none => rw [h.after n hn] at hs; cases hs
  | some u =>
    cases ht : step u with
    | next t =>
      obtain ⟨v, hv, hr⟩ := h.next n u t hn ht
      obtain rfl : v = s := Option.some.inj (hr.symm.trans hs)
      exact ⟨u, t, rfl, ht, hv⟩
    | fault f => rw [h.last n u hn (by simp [ht])] at hs; cases hs
    | refused f => rw [h.last n u hn (by simp [ht])] at hs; cases hs

/-- What every step and every move of the environment keep, a run keeps. -/
theorem IsRun.keeps (h : IsRun r) {P : State → Prop} (hstep : ∀ u t, P u → step u = .next t → P t)
    (henv : ∀ u t, P u → u.EnvMay t → P t) (h0 : ∀ s, r 0 = some s → P s) (n : Nat) {s : State} (hs : r n = some s) :
    P s := by
  induction n generalizing s with
  | zero => exact h0 s hs
  | succ n ih =>
    obtain ⟨u, t, hu, ht, hm⟩ := h.pred hs
    exact henv t s (hstep u t (ih hu) ht) hm

/-- A run has one end. -/
theorem RunEndsWith.unique (h : IsRun r) {o o' : Observation} (ho : RunEndsWith r o) (ho' : RunEndsWith r o') : o = o' := by
  obtain ⟨n, s, hs, hh, rfl⟩ := ho
  obtain ⟨m, t, ht, hh', rfl⟩ := ho'
  have key : ∀ {i j : Nat} {u v : State}, r i = some u → u.run = .halted → r j = some v → j ≤ i := by
    intro i j u v hu hru hv
    by_contra hlt
    obtain ⟨k, rfl⟩ : ∃ k, j = i + 1 + k := ⟨j - (i + 1), by omega⟩
    rw [h.none_after (h.halted_last hu hru) k] at hv
    cases hv
  obtain rfl : n = m := le_antisymm (key ht hh' hs) (key hs hh ht)
  rw [Option.some.inj (hs.symm.trans ht)]

/-- A run ends, or goes on for ever, or comes to a running core whose step never completes (R175). -/
theorem IsRun.ends_or_hangs (h : IsRun r) (h0 : (r 0).isSome = true) :
    RunEnds r ∨ (RunHangs r ∧ ((∀ n, (r n).isSome = true) ∨ ∃ n s, r n = some s ∧ ∀ t, step s ≠ .next t)) := by
  by_cases he : RunEnds r
  · exact .inl he
  · refine .inr ⟨fun n s hs => ?_, ?_⟩
    · cases hr : s.run
      · rfl
      · exact absurd ⟨_, n, s, hs, hr, rfl⟩ he
    · by_cases hall : ∃ n s, r n = some s ∧ ∀ t, step s ≠ .next t
      · exact .inr hall
      · refine .inl fun n => ?_
        induction n with
        | zero => exact h0
        | succ n ih =>
          obtain ⟨s, hs⟩ := Option.isSome_iff_exists.mp ih
          by_contra hn
          refine hall ⟨n, s, hs, fun t ht => hn ?_⟩
          obtain ⟨u, -, hu⟩ := h.next n s t hs ht
          rw [hu]; rfl

/-! ### A polling loop ends under the premise of fairness (R175 b, R199) -/

/-- The polling idiom of R199 stands at `L`: an LDI through a pointer that holds KBSR_ADDR, then a BRzp back to it; the
stream's front byte is `b`. -/
structure PollLoop (c : Config) (L : Word) (dr : RegIdx) (off back : BitVec 9) (b : Byte) (u : State) : Prop where
  cfg : u.cfg = c
  run : u.run = .running
  ldi : decode (u.store L) = .ldi dr off
  br : decode (u.store (L + 1)) = .br false true true back
  ptr : u.store (L + 1 + sext off) = c.kbsrAddr
  front : ∃ rest, u.env.input = b :: rest

/-- Where a polling loop may stand: none of its words is a device cell, and its branch leads back. -/
structure PollLoopPlace (c : Config) (L : Word) (off back : BitVec 9) : Prop where
  wf : c.wf
  ldi : L ≠ c.kbsrAddr ∧ L ≠ c.kbdrAddr
  br : L + 1 ≠ c.kbsrAddr ∧ L + 1 ≠ c.kbdrAddr
  ptr : L + 1 + sext off ≠ c.kbsrAddr ∧ L + 1 + sext off ≠ c.kbdrAddr
  back : L + 1 + 1 + sext back = L

variable {c : Config} {L : Word} {dr : RegIdx} {off back : BitVec 9} {b : Byte} {u v : State}

theorem PollLoop.envMay (h : PollLoop c L dr off back b u) (hm : u.EnvMay v) : PollLoop c L dr off back b v := by
  obtain ⟨e, ⟨⟨more, hp⟩, -⟩, rfl⟩ := hm
  obtain ⟨rest, hf⟩ := h.front
  exact ⟨h.cfg, h.run, h.ldi, h.br, h.ptr, rest ++ more, by rw [← hp, hf]; rfl⟩

/-- The LDI of the loop polls once, and loads what the poll found. -/
theorem PollLoop.step_ldi (h : PollLoop c L dr off back b u) (hl : PollLoopPlace c L off back) (hpc : u.pc = L) :
    ∃ t, step u = .next t ∧ t.pc = L + 1 ∧ t.env.pollReady = u.env.pollReady.advance ∧
      (u.env.pollReady.answer = false → PollLoop c L dr off back b t ∧ t.cond = .zro) ∧
      (u.env.pollReady.answer = true → t.cond = .neg ∧ t.reg dr = 0x8000 ∧ t.store c.kbdrAddr = zext16 b ∧
        t.run = .running ∧ t.cfg = c ∧ decode (t.store (L + 1)) = .br false true true back) := by
  have hne : u.pc ≠ u.cfg.kbsrAddr := by rw [hpc, h.cfg]; exact hl.ldi.1
  have hstep : step u = .next (loadInto dr c.kbsrAddr (u.setPc (L + 1))) := by
    rw [step_running h.run, fetch_eq, memRead_plain hne]
    dsimp only
    rw [hpc, h.ldi]
    have hp : memRead (L + 1 + sext off) (u.setPc (L + 1)) = (c.kbsrAddr, u.setPc (L + 1)) := by
      rw [memRead_plain (by rw [setPc_cfg, h.cfg]; exact hl.ptr.1), setPc_store, h.ptr]
    exact congrArg (fun p : Word × State => Host.Outcome.next (loadInto dr p.1 p.2)) hp
  have hcfg : (u.setPc (L + 1)).cfg.kbsrAddr = c.kbsrAddr := by rw [setPc_cfg, h.cfg]
  have hcell : ∀ x, x ≠ c.kbsrAddr → x ≠ c.kbdrAddr → (loadInto dr c.kbsrAddr (u.setPc (L + 1))).store x = u.store x := by
    intro x h1 h2
    simp only [loadInto, writeResult_store]
    rw [memRead_store_other _ _ (by rw [setPc_cfg, h.cfg]; exact h1) (by rw [setPc_cfg, h.cfg]; exact h2), setPc_store]
  have hmr : memRead c.kbsrAddr (u.setPc (L + 1)) = ((pollKeyboard (u.setPc (L + 1))).store c.kbsrAddr, pollKeyboard (u.setPc (L + 1))) := by
    have := memRead_kbsr (u.setPc (L + 1))
    rwa [hcfg] at this
  have henv : (loadInto dr c.kbsrAddr (u.setPc (L + 1))).env = (kbdPoll (u.setPc (L + 1))).2.env := by
    rw [loadInto, writeResult_env, hmr]
    exact pollKeyboard_env _
  obtain ⟨rest, hf⟩ := h.front
  refine ⟨_, hstep, by simp [loadInto], ?_, ?_, ?_⟩
  · rw [henv]
    cases ha : u.env.pollReady.answer
    · rw [kbdPoll_notReady (u.setPc (L + 1)) ha]; rfl
    · rw [kbdPoll_ready (u.setPc (L + 1)) ha]
      simp [Env.takeByte, hf]
  · intro ha
    have hk := kbdPoll_notReady (u.setPc (L + 1)) ha
    have hv : (pollKeyboard (u.setPc (L + 1))).store c.kbsrAddr = 0 := by
      rcases pollKeyboard_cases (u.setPc (L + 1)) with ⟨b', hb, -⟩ | ⟨-, hs⟩
      · rw [hk] at hb; cases hb
      · rw [hs, hcfg, setStore_store_same]
    refine ⟨⟨by simp [loadInto, h.cfg], by simp [loadInto, h.run], ?_, ?_, ?_, rest, ?_⟩, ?_⟩
    · rw [hcell _ hl.ldi.1 hl.ldi.2, h.ldi]
    · rw [hcell _ hl.br.1 hl.br.2, h.br]
    · rw [hcell _ hl.ptr.1 hl.ptr.2, h.ptr]
    · rw [henv, hk]; exact hf
    · simp only [loadInto, writeResult_cond, hmr, hv]; rfl
  · intro ha
    have hk : (kbdPoll (u.setPc (L + 1))).1 = some b := by
      rw [kbdPoll_ready (u.setPc (L + 1)) ha]
      simp [Env.takeByte, hf]
    have hst := pollKeyboard_store hk
    rw [setPc_cfg, h.cfg] at hst
    have hv : (pollKeyboard (u.setPc (L + 1))).store c.kbsrAddr = kbsrReady := by
      rw [hst, if_neg hl.wf, if_pos rfl]
    refine ⟨?_, ?_, ?_, by simp [loadInto, h.run], by simp [loadInto, h.cfg], ?_⟩
    · simp only [loadInto, writeResult_cond, hmr, hv]; decide
    · simp only [loadInto, writeResult_reg_same, hmr, hv]; rfl
    · simp only [loadInto, writeResult_store, hmr]; rw [hst, if_pos rfl]
    · rw [hcell _ hl.br.1 hl.br.2, h.br]

/-- The BRzp of the loop: back where the LDI loaded 0, on where it loaded 0x8000; no poll. -/
theorem step_brzp (hr : u.run = .running) (hc : u.cfg = c) (hl : PollLoopPlace c L off back) (hpc : u.pc = L + 1)
    (hb : decode (u.store (L + 1)) = .br false true true back) (hf : u.cond ≠ .pos) :
    step u = .next (u.setPc (if u.cond = .zro then L else L + 1 + 1)) := by
  rw [step_running hr, fetch_eq, memRead_plain (by rw [hpc, hc]; exact hl.br.1)]
  dsimp only
  rw [hpc, hb]
  cases hcd : u.cond
  · exact absurd hcd hf
  · simp [exec, execBr, brtest, hcd, pcRelative, State.setPc]
    exact hl.back
  · simp [exec, execBr, brtest, hcd]

theorem PollLoop.listPoll (h : PollLoop c L dr off back b u) : PollLoop c L dr off back b u.listPoll :=
  ⟨h.cfg, h.run, h.ldi, h.br, h.ptr, h.front⟩

theorem answer_listPoll (u : State) : u.listPoll.env.pollReady.answer = u.env.pollReady.answer := by
  obtain ⟨regs, pc, cond, mem, run, stop, out, cfg, ⟨input, tail, ⟨coming, later⟩, rf, wf⟩⟩ := u
  cases coming <;> rfl

/-- The LDI of the loop makes one poll, the BRzp none. -/
theorem PollLoop.pollAnswers_ldi (h : PollLoop c L dr off back b u) (hl : PollLoopPlace c L off back) (hpc : u.pc = L) :
    pollAnswers u = [u.env.pollReady.answer] := by
  obtain ⟨t, ht, -, hp, -⟩ := h.listPoll.step_ldi hl hpc
  rw [pollAnswers, ht]
  dsimp only
  rw [hp, ← answer_listPoll]
  obtain ⟨regs, pc, cond, mem, run, stop, out, cfg, ⟨input, tail, ⟨coming, later⟩, rf, wf⟩⟩ := u
  cases coming <;> simp [State.listPoll, Choices.advance, Choices.answer]

theorem pollAnswers_brzp (hr : u.run = .running) (hc : u.cfg = c) (hl : PollLoopPlace c L off back) (hpc : u.pc = L + 1)
    (hb : decode (u.store (L + 1)) = .br false true true back) (hf : u.cond ≠ .pos) : pollAnswers u = [] := by
  rw [pollAnswers, step_brzp (u := u.listPoll) hr hc hl hpc hb hf]
  simp

/-- The polling idiom of R199 ends in every run in which the polls are fair, however the environment's moves vary: where
a byte `b` is at the front of the stream, the run comes to the instruction after the loop, with KBSR_READY in the loop's
register and `b` in KBDR. -/
theorem IsRun.poll_loop_ends {r : Nat → Option State} (hrun : IsRun r) (hfair : PollsAreFair r)
    (hl : PollLoopPlace c L off back) {n : Nat} (hs : r n = some u) (h : PollLoop c L dr off back b u) (hpc : u.pc = L) :
    ∃ m ≥ n, ∃ v, r m = some v ∧ v.pc = L + 1 + 1 ∧ v.reg dr = 0x8000 ∧ v.store c.kbdrAddr = zext16 b := by
  have htop : ∀ {m : Nat} {w : State}, r m = some w → PollLoop c L dr off back b w → w.pc = L →
      ∃ t v, step w = .next t ∧ t.EnvMay v ∧ r (m + 1) = some v ∧ v.pc = L + 1 ∧
        (w.env.pollReady.answer = false → PollLoop c L dr off back b v ∧ v.cond = .zro) ∧
        (w.env.pollReady.answer = true → v.cond = .neg ∧ v.reg dr = 0x8000 ∧ v.store c.kbdrAddr = zext16 b ∧
          v.run = .running ∧ v.cfg = c ∧ decode (v.store (L + 1)) = .br false true true back) := by
    intro m w hw hloop hwpc
    obtain ⟨t, ht, hp, -, h0, h1⟩ := hloop.step_ldi hl hwpc
    obtain ⟨v, hv, hr⟩ := hrun.next m w t hw ht
    refine ⟨t, v, ht, hv, hr, ?_, fun ha => ⟨(h0 ha).1.envMay hv, ?_⟩, fun ha => ?_⟩
    · obtain ⟨e, -, rfl⟩ := hv; exact hp
    · obtain ⟨e, -, rfl⟩ := hv; exact (h0 ha).2
    · obtain ⟨e, -, rfl⟩ := hv; exact h1 ha
  by_cases hready : ∃ m ≥ n, ∃ w, r m = some w ∧ PollLoop c L dr off back b w ∧ w.pc = L ∧ w.env.pollReady.answer = true
  · obtain ⟨m, hm, w, hw, hloop, hwpc, ha⟩ := hready
    obtain ⟨-, v, -, -, hr, hvpc, -, h1⟩ := htop hw hloop hwpc
    obtain ⟨hc, hreg, hk, hrv, hcv, hbv⟩ := h1 ha
    have hbr := step_brzp hrv hcv hl hvpc hbv (by simp [hc])
    obtain ⟨x, hx, hrx⟩ := hrun.next (m + 1) v _ hr hbr
    refine ⟨m + 1 + 1, by omega, x, hrx, ?_⟩
    obtain ⟨e, -, rfl⟩ := hx
    simp only [hc]
    exact ⟨rfl, hreg, hk⟩
  · have hno : ∀ {m : Nat} {w : State}, n ≤ m → r m = some w → PollLoop c L dr off back b w → w.pc = L →
        w.env.pollReady.answer = false := by
      intro m w hm hw hloop hwpc
      cases ha : w.env.pollReady.answer
      · rfl
      · exact absurd ⟨m, hm, w, hw, hloop, hwpc, ha⟩ hready
    have hloop : ∀ j, (∃ w, r (n + 2 * j) = some w ∧ PollLoop c L dr off back b w ∧ w.pc = L) ∧
        ∃ v, r (n + 2 * j + 1) = some v ∧ PollLoop c L dr off back b v ∧ v.pc = L + 1 ∧ v.cond = .zro := by
      intro j
      have second : ∀ {m : Nat} {w : State}, n ≤ m → r m = some w → PollLoop c L dr off back b w → w.pc = L →
          ∃ v, r (m + 1) = some v ∧ PollLoop c L dr off back b v ∧ v.pc = L + 1 ∧ v.cond = .zro := by
        intro m w hm hw hw' hwpc
        obtain ⟨-, v, -, -, hr, hvpc, h0, -⟩ := htop hw hw' hwpc
        exact ⟨v, hr, (h0 (hno hm hw hw' hwpc)).1, hvpc, (h0 (hno hm hw hw' hwpc)).2⟩
      induction j with
      | zero => exact ⟨⟨u, hs, h, hpc⟩, second le_rfl hs h hpc⟩
      | succ j ih =>
        obtain ⟨-, v, hv, hv', hvpc, hvc⟩ := ih
        have hbr := step_brzp hv'.run hv'.cfg hl hvpc hv'.br (by simp [hvc])
        rw [if_pos hvc] at hbr
        obtain ⟨x, hx, hrx⟩ := hrun.next _ v _ hv hbr
        have hx' : PollLoop c L dr off back b x :=
          PollLoop.envMay (u := v.setPc L) ⟨hv'.cfg, hv'.run, hv'.ldi, hv'.br, hv'.ptr, hv'.front⟩ hx
        have hxpc : x.pc = L := by obtain ⟨e, -, rfl⟩ := hx; rfl
        rw [show n + 2 * j + 1 + 1 = n + 2 * (j + 1) by omega] at hrx
        exact ⟨⟨x, hrx, hx', hxpc⟩, second (by omega) hrx hx' hxpc⟩
    have hat : ∀ m ≥ n, ∃ j, m = n + 2 * j ∨ m = n + 2 * j + 1 := fun m hm => ⟨(m - n) / 2, by omega⟩
    obtain ⟨k, hk, w, hw, ht⟩ := hfair n
      (fun m hm => by
        have hbyte : ∀ {w : State}, PollLoop c L dr off back b w → w.env.HasByte := fun hw => by
          obtain ⟨rest, hf⟩ := hw.front
          exact .inl (by simp [hf])
        obtain ⟨j, rfl | rfl⟩ := hat m hm
        · obtain ⟨⟨w, hw, hw', -⟩, -⟩ := hloop j; exact ⟨w, hw, hbyte hw'⟩
        · obtain ⟨-, w, hw, hw', -⟩ := hloop j; exact ⟨w, hw, hbyte hw'⟩)
      (fun m hm => by
        obtain ⟨⟨w, hw, hw', hwpc⟩, -⟩ := hloop m
        exact ⟨n + 2 * m, by omega, w, hw, by simp [hw'.pollAnswers_ldi hl hwpc]⟩)
    obtain ⟨j, rfl | rfl⟩ := hat k hk
    · obtain ⟨⟨w', hw', hloop', hwpc⟩, -⟩ := hloop j
      obtain rfl : w' = w := Option.some.inj (hw'.symm.trans hw)
      rw [hloop'.pollAnswers_ldi hl hwpc, hno (by omega) hw hloop' hwpc] at ht
      simp at ht
    · obtain ⟨-, w', hw', hloop', hwpc, hwc⟩ := hloop j
      obtain rfl : w' = w := Option.some.inj (hw'.symm.trans hw)
      rw [pollAnswers_brzp hloop'.run hloop'.cfg hl hwpc hloop'.br (by simp [hwc])] at ht
      simp at ht

/-! ### Inside one step -/

variable {ends : Word → Bool} {bytes : Word → List Byte} {a : Word}

/-- A walk of PUTS or PUTSP from address `a` that never meets its terminator while the environment moves before every
word, with no limit on how its moves vary: `u k` is the state before word `k` and before the move there. -/
structure EndlessWalk (ends : Word → Bool) (bytes : Word → List Byte) (a : Word) (s : State) (u : Nat → State)
    (e : Nat → Env) : Prop where
  start : u 0 = s
  move : ∀ k, (u k).env.MayBecome (e k)
  word : ∀ k, ends (memRead (a + BitVec.ofNat 16 k) { u k with env := e k }).1 = false
  next : ∀ k, u (k + 1) = (conOutAll (bytes (memRead (a + BitVec.ofNat 16 k) { u k with env := e k }).1)
    (memRead (a + BitVec.ofNat 16 k) { u k with env := e k }).2).2

theorem conOutAll_tail (bs : List Byte) (s : State) : (conOutAll bs s).2.env.tail = s.env.tail :=
  conOutAll_keeps (P := fun t => t.env.tail = s.env.tail)
    (fun b u h => by rcases conOut_cases b u with ⟨_, h'⟩ | ⟨_, h'⟩ <;> rw [h'] <;> exact h) bs rfl

@[simp] theorem conOutAll_store (bs : List Byte) (s : State) (x : Word) : (conOutAll bs s).2.store x = s.store x := by
  simp [State.store]

/-- The environment that ends no such walk: the listed bytes, then byte `b` without end, found by every poll. -/
def Env.feeding (input : List Byte) (b : Byte) : Env :=
  { input := input, tail := .endless b, pollReady := ⟨[], true⟩, readFails := ⟨[], false⟩, writeFails := ⟨[], false⟩ }

/-- A poll of a feeding environment. -/
theorem kbdPoll_feeding {w : State} {b : Byte} {input : List Byte} (h : w.env = Env.feeding input b) :
    kbdPoll w = (some (input.headD b), { w with env := Env.feeding input.tail b }) := by
  rw [kbdPoll_ready w (by rw [h]; rfl), h]
  cases input <;> rfl

theorem conOutAll_feeding {w : State} {b : Byte} {input : List Byte} (bs : List Byte)
    (h : w.env = Env.feeding input b) : (conOutAll bs w).1 = true ∧ (conOutAll bs w).2.env = Env.feeding input b := by
  induction bs generalizing w with
  | nil => exact ⟨rfl, h⟩
  | cons d bs ih =>
    have hc := conOut_accepted d w (by rw [h]; rfl)
    simp only [conOutAll, hc]
    exact ih (by simp [h, Env.afterWrites, Env.feeding])

/-- Two reads of one address in states with equal cells, whose polls answer the same: they answer the same word and
leave equal cells. -/
theorem memRead_congr {x : Word} {v w : State} (hc : v.cfg = w.cfg) (hs : ∀ y, v.store y = w.store y)
    (hp : x = v.cfg.kbsrAddr → (kbdPoll v).1 = (kbdPoll w).1) :
    (memRead x v).1 = (memRead x w).1 ∧ ∀ y, (memRead x v).2.store y = (memRead x w).2.store y := by
  have key : ∀ y, (memRead x v).2.store y = (memRead x w).2.store y := by
    intro y
    rcases memRead_cases x v with ⟨h1, h2⟩ | ⟨h1, h2⟩ <;> rcases memRead_cases x w with ⟨h3, h4⟩ | ⟨h3, h4⟩ <;> rw [h2, h4]
    · exact hs y
    · exact absurd (h3.trans (by rw [hc])) h1
    · exact absurd (h1.trans (by rw [hc])) h3
    · have hv : (kbdPoll v).2.store y = v.store y := by simp [State.store]
      have hw : (kbdPoll w).2.store y = w.store y := by simp [State.store]
      cases hk : (kbdPoll v).1 with
      | some b => rw [pollKeyboard_store hk, pollKeyboard_store ((hp h1) ▸ hk), hc, hs]
      | none =>
        rcases pollKeyboard_cases v with ⟨b, h, -⟩ | ⟨-, h⟩
        · rw [hk] at h; cases h
        · rcases pollKeyboard_cases w with ⟨b, h', -⟩ | ⟨-, h'⟩
          · rw [← hp h1, hk] at h'; cases h'
          · dsimp only
            rw [h, h', hc]
            by_cases hy : y = w.cfg.kbsrAddr
            · subst hy; rw [setStore_store_same, setStore_store_same]
            · rw [setStore_store_other _ _ hy, setStore_store_other _ _ hy, hv, hw, hs]
  exact ⟨by rw [memRead_value, memRead_value]; exact key x, key⟩

/-- A poll that finds a byte takes the front one. -/
theorem kbdPoll_front {v : State} {b c : Byte} {rest : List Byte} (h : (kbdPoll v).1 = some b)
    (hi : v.env.input = c :: rest) :
    b = c ∧ (kbdPoll v).2.env.input = rest ∧ (kbdPoll v).2.env.tail = v.env.tail := by
  obtain ⟨-, -, -, h4, h5, -⟩ := kbdPoll_uses h
  rw [kbdPoll_ready v h5] at h ⊢
  simp [Env.takeByte, hi] at h ⊢
  exact h.symm

/-- A read in a feeding environment leaves one, with the listed byte that a poll takes gone. -/
theorem memRead_feeding {w : State} {b : Byte} {input : List Byte} (h : w.env = Env.feeding input b) (x : Word) :
    (memRead x w).2.env = Env.feeding (if x = w.cfg.kbsrAddr then input.tail else input) b := by
  rcases memRead_cases x w with ⟨h1, h2⟩ | ⟨h1, h2⟩ <;> rw [h2]
  · rw [if_neg h1]; exact h
  · rw [if_pos h1]
    dsimp only
    rw [pollKeyboard_env, kbdPoll_feeding h]

/-- No verdict is lost by holding the environment as a list and a constant rest: a walk that never ends under moves that
vary in any way never ends under one environment of that form which the moves' start may become (I9). -/
theorem EndlessWalk.covered {u : Nat → State} {e : Nat → Env} (h : EndlessWalk ends bytes a s u e)
    (he : ends 0x0000 = true) :
    ∃ e', s.env.MayBecome e' ∧ ∀ n, stringWalk ends bytes n a { s with env := e' } = .unfinished := by
  have hcfg : ∀ k, (u k).cfg = s.cfg := by
    intro k
    induction k with
    | zero => rw [h.start]
    | succ k ih => rw [h.next]; simp [ih]
  -- what a poll of the free walk takes
  have hpoll : ∀ k, a + BitVec.ofNat 16 k = s.cfg.kbsrAddr →
      ∃ b, (kbdPoll { u k with env := e k }).1 = some b := fun k hk =>
    poll_finds_byte he (u := { u k with env := e k }) (by rw [hk]; exact (congrArg _ (hcfg k)).symm) (h.word k)
  -- the first word whose poll finds the listed bytes all consumed
  have hex : ∃ k, a + BitVec.ofNat 16 k = s.cfg.kbsrAddr ∧ s.env.input.length ≤ pollCount a s.cfg.kbsrAddr k := by
    obtain ⟨i, -, hi⟩ := lap_reads_kbsr a s.cfg.kbsrAddr (65536 * s.env.input.length)
    exact ⟨_, hi, (le_pollCount a _ _).trans (pollCount_mono _ _ _ _)⟩
  classical
  obtain ⟨k0, ⟨hk0, hcount⟩, hmin⟩ : ∃ k, (a + BitVec.ofNat 16 k = s.cfg.kbsrAddr ∧
      s.env.input.length ≤ pollCount a s.cfg.kbsrAddr k) ∧ ∀ j < k, a + BitVec.ofNat 16 j = s.cfg.kbsrAddr →
        pollCount a s.cfg.kbsrAddr j < s.env.input.length :=
    ⟨Nat.find hex, Nat.find_spec hex, fun j hj hja => by
      have := Nat.find_min hex hj
      exact Nat.lt_of_not_le fun hle => this ⟨hja, hle⟩⟩
  obtain ⟨b, hb⟩ := hpoll k0 hk0
  obtain ⟨s', hs'⟩ : ∃ s' : State, s' = { s with env := Env.feeding s.env.input b } := ⟨_, rfl⟩
  have hsim : ∀ k ≤ k0, (∀ y, (walkState bytes a s' k).store y = (u k).store y) ∧
      (walkState bytes a s' k).cfg = s.cfg ∧
      (walkState bytes a s' k).env =
        Env.feeding (s.env.input.drop (pollCount a s.cfg.kbsrAddr k)) b ∧
      s.env.input.drop (pollCount a s.cfg.kbsrAddr k) <+: (u k).env.input ∧
      (s.env.tail = .ended → (u k).env.tail = .ended ∧
        (u k).env.input = s.env.input.drop (pollCount a s.cfg.kbsrAddr k)) := by
    intro k hk
    induction k with
    | zero => rw [h.start, walkState, hs']; exact ⟨fun _ => rfl, rfl, rfl, List.prefix_rfl, fun ht => ⟨ht, rfl⟩⟩
    | succ k ih =>
      obtain ⟨i1, i2, i3, i4, i5⟩ := ih (by omega)
      have hg := h.word k
      have hm := h.move k
      have hc := hcfg k
      have hpk := hpoll k
      have hmk := hmin k (by omega)
      rw [h.next k, walkState]
      dsimp only
      generalize walkState bytes a s' k = w at i1 i2 i3 ⊢
      have hpc : pollCount a s.cfg.kbsrAddr (k + 1) =
        pollCount a s.cfg.kbsrAddr k + if a + BitVec.ofNat 16 k = s.cfg.kbsrAddr then 1 else 0 := rfl
      rw [hpc]
      generalize a + BitVec.ofNat 16 k = x at hpk hmk hg ⊢
      generalize pollCount a s.cfg.kbsrAddr k = p at i3 i4 i5 hmk ⊢
      obtain ⟨v, hv⟩ : ∃ v : State, v = { u k with env := e k } := ⟨_, rfl⟩
      rw [← hv] at hg hpk ⊢
      have hvc : v.cfg = s.cfg := by rw [hv]; exact hc
      have hvs : ∀ y, v.store y = w.store y := fun y => by rw [i1, hv]; rfl
      have hvi : s.env.input.drop p <+: v.env.input := by rw [hv]; exact i4.trans hm.1
      have hve : s.env.tail = .ended → v.env.tail = .ended ∧ v.env.input = s.env.input.drop p := fun ht => by
        rw [hv]; exact ⟨(hm.2 (i5 ht).1).2, ((hm.2 (i5 ht).1).1).trans (i5 ht).2⟩
      have hfeed := memRead_feeding i3 x
      have hcon := conOutAll_env (bytes (memRead x v).1) (memRead x v).2
      have htl := conOutAll_tail (bytes (memRead x v).1) (memRead x v).2
      have hread : (∀ y, (memRead x w).2.store y = (memRead x v).2.store y) ∧
          s.env.input.drop (p + if x = s.cfg.kbsrAddr then 1 else 0) <+: (memRead x v).2.env.input ∧
          (s.env.tail = .ended → (memRead x v).2.env.tail = .ended ∧
            (memRead x v).2.env.input = s.env.input.drop (p + if x = s.cfg.kbsrAddr then 1 else 0)) := by
        by_cases hx : x = s.cfg.kbsrAddr
        · rw [if_pos hx]
          obtain ⟨d, hd⟩ := hpk hx
          have hlt := hmk hx
          have hdrop := List.drop_eq_getElem_cons hlt
          obtain ⟨more, hmore⟩ := hvi
          rw [hdrop] at hmore
          obtain ⟨hf1, hf2, hf3⟩ := kbdPoll_front hd hmore.symm
          have hm2 : (memRead x v).2.env = (kbdPoll v).2.env := by
            rcases memRead_cases x v with ⟨h1, -⟩ | ⟨-, h2⟩
            · exact absurd (hx.trans (by rw [hvc])) h1
            · rw [h2]; exact pollKeyboard_env v
          rw [hm2, hf2, hf3]
          refine ⟨(memRead_congr (i2.trans hvc.symm) (fun y => (hvs y).symm) fun _ => ?_).2, ⟨more, rfl⟩, fun ht => ⟨(hve ht).1, ?_⟩⟩
          · rw [kbdPoll_feeding i3, hdrop, hd, hf1]; rfl
          · have := (hve ht).2
            rw [← hmore, hdrop] at this
            exact (List.cons.inj this).2
        · rw [if_neg hx, memRead_plain (s := v) (by rw [hvc]; exact hx), memRead_plain (s := w) (by rw [i2]; exact hx)]
          exact ⟨fun y => (hvs y).symm, hvi, hve⟩
      refine ⟨fun y => ?_, by simp [i2], ?_, ?_, fun ht => ?_⟩
      · rw [conOutAll_store, conOutAll_store, hread.1]
      · rw [(conOutAll_feeding _ hfeed).2, i2]
        split
        · rw [List.tail_drop]
        · rfl
      · rw [hcon.1]; exact hread.2.1
      · rw [hcon.1, htl]; exact hread.2.2 ht
  obtain ⟨j1, j2, j3, j4, j5⟩ := hsim k0 le_rfl
  have hnil : s.env.input.drop (pollCount a s.cfg.kbsrAddr k0) = [] := List.drop_eq_nil_of_le hcount
  rw [hnil] at j3 j5
  have htail : s.env.tail ≠ .ended := fun ht => by
    have hm := h.move k0
    have hfree := (kbdPoll_uses hb).2.2.2.2.2 (by exact ((hm.2 (j5 ht).1).1).trans (j5 ht).2)
    rw [show ({ u k0 with env := e k0 } : State).env.tail = .ended from (hm.2 (j5 ht).1).2] at hfree
    cases hfree
  refine ⟨Env.feeding s.env.input b, ⟨List.prefix_rfl, fun ht => absurd ht htail⟩, fun n => ?_⟩
  -- word `k` of the two walks is the same up to the poll of word `k0`
  have hword : ∀ k ≤ k0, (memRead (a + BitVec.ofNat 16 k) (walkState bytes a s' k)).1 =
        (memRead (a + BitVec.ofNat 16 k) { u k with env := e k }).1 ∧
      ∀ y, (memRead (a + BitVec.ofNat 16 k) (walkState bytes a s' k)).2.store y =
        (memRead (a + BitVec.ofNat 16 k) { u k with env := e k }).2.store y := by
    intro k hk
    obtain ⟨i1, i2, i3, i4, -⟩ := hsim k hk
    refine memRead_congr (i2.trans (hcfg k).symm) (fun y => i1 y) fun hx => ?_
    have hx' := hx.trans (by rw [i2])
    rw [kbdPoll_feeding i3]
    rcases Nat.lt_or_ge k k0 with hlt | hge
    · obtain ⟨d, hd⟩ := hpoll k hx'
      have hdrop := List.drop_eq_getElem_cons (hmin k hlt hx')
      obtain ⟨more, hmore⟩ := i4.trans (h.move k).1
      rw [hdrop] at hmore
      rw [hd, (kbdPoll_front hd hmore.symm).1, hdrop]
      rfl
    · obtain rfl : k = k0 := le_antisymm hk hge
      rw [hb, hnil]
      rfl
  have hgo : ∀ k ≤ k0, goesOn ends bytes a s' k := by
    intro k hk
    refine ⟨?_, (conOutAll_feeding _ (memRead_feeding (hsim k hk).2.2.1 _)).1⟩
    rw [(hword k hk).1]
    exact h.word k
  have hst : ∀ y, (walkState bytes a s' (k0 + 1)).store y = (u (k0 + 1)).store y := by
    intro y
    rw [walkState, h.next, conOutAll_store, conOutAll_store]
    exact (hword k0 le_rfl).2 y
  have hpollst := pollKeyboard_store (s := walkState bytes a s' k0) (b := b)
    (by rw [kbdPoll_feeding j3]; rfl)
  rw [j2] at hpollst
  have hread0 : memRead (a + BitVec.ofNat 16 k0) (walkState bytes a s' k0) =
      ((pollKeyboard (walkState bytes a s' k0)).store s.cfg.kbsrAddr, pollKeyboard (walkState bytes a s' k0)) := by
    have h0 := memRead_kbsr (walkState bytes a s' k0)
    rw [j2] at h0
    rw [hk0, h0]
  have hsteady : Steady s.cfg (u (k0 + 1)).store b (walkState bytes a s' (k0 + 1)) := by
    have henv : (walkState bytes a s' (k0 + 1)).env = Env.feeding [] b := by
      rw [walkState, (conOutAll_feeding _ (memRead_feeding j3 _)).2]
      split <;> rfl
    refine ⟨by rw [henv]; rfl, by rw [henv]; rfl, by rw [henv]; rfl, by rw [henv]; rfl, ?_, ?_, fun y _ _ => hst y⟩
    · rw [walkState]; simp [j2]
    · rw [walkState, conOutAll_store, hread0, hpollst, if_pos rfl]
  -- one lap of the steady state: no word of it but the last is read at KBSR_ADDR
  have hlap : ∀ d < 65535, a + BitVec.ofNat 16 (k0 + 1 + d) ≠ s.cfg.kbsrAddr := by
    intro d hd heq
    rw [← hk0, Nat.add_assoc, BitVec.ofNat_add, ← BitVec.add_assoc] at heq
    have h1 : BitVec.ofNat 16 (1 + d) = 0 := by simpa using heq
    have h2 := congrArg BitVec.toNat h1
    simp only [BitVec.toNat_ofNat] at h2
    simp at h2
    omega
  have hfree : ∀ d ≤ 65535, ∀ y, (u (k0 + 1 + d)).store y = (u (k0 + 1)).store y := by
    intro d hd
    induction d with
    | zero => exact fun _ => rfl
    | succ d ih =>
      intro y
      rw [← ih (by omega) y, ← Nat.add_assoc, h.next, conOutAll_store,
        memRead_plain (s := { u (k0 + 1 + d) with env := e (k0 + 1 + d) }) (by
          rw [show ({ u (k0 + 1 + d) with env := e (k0 + 1 + d) } : State).cfg = s.cfg from hcfg _]
          exact hlap d (by omega))]
      rfl
  rw [← hs']
  refine (stringWalk_unfinished_iff _ _ _ _ _).mpr fun k _ => hsteady.forever (fun k hk => ?_) k
  rcases Nat.lt_or_ge k (k0 + 1) with hlt | hge
  · exact hgo k (by omega)
  obtain ⟨d, rfl⟩ : ∃ d, k = k0 + 1 + d := ⟨k - (k0 + 1), by omega⟩
  refine (hsteady.walk d).goesOn_iff.mpr ?_
  rcases Nat.lt_or_ge d 65535 with hd | hd
  · have hne := hlap d hd
    have hw := h.word (k0 + 1 + d)
    rw [memRead_plain (s := { u (k0 + 1 + d) with env := e (k0 + 1 + d) }) (by
      rw [show ({ u (k0 + 1 + d) with env := e (k0 + 1 + d) } : State).cfg = s.cfg from hcfg _]; exact hne)] at hw
    have hval : steadyWord s.cfg (u (k0 + 1)).store b (a + BitVec.ofNat 16 (k0 + 1 + d)) =
        (u (k0 + 1 + d)).store (a + BitVec.ofNat 16 (k0 + 1 + d)) := by
      rw [hfree d hd.le, steadyWord, if_neg hne]
      split
      · rename_i hkd
        rw [hkd, ← hst, hsteady.kbdr]
      · rfl
    rw [hval]
    exact hw
  · obtain rfl : d = 65535 := by omega
    have hlast : a + BitVec.ofNat 16 (k0 + 1 + 65535) = s.cfg.kbsrAddr := by
      rw [← hk0, Nat.add_assoc, BitVec.ofNat_add]
      simp
    have h0 := (hgo k0 le_rfl).1
    rw [hread0, hpollst] at h0
    rw [hlast, steadyWord]
    simpa using h0

/-- So for PUTS: where its loop would never end under moves that vary in any way, an environment it may have makes the
step the stuck one. -/
theorem EndlessWalk.puts {u : Nat → State} {e : Nat → Env} (h : EndlessWalk putsEnds putsBytes (s.reg 0) s u e) :
    ∃ e', s.env.MayBecome e' ∧ exec .puts { s with env := e' } = .fault .stringNeverEnds := by
  obtain ⟨e', he, hw⟩ := h.covered putsEnds_zero
  exact ⟨e', he, congrArg (endOfWalk (encode .puts)) (hw (walkBound { s with env := e' }))⟩

/-- And so for PUTSP. -/
theorem EndlessWalk.putsp {u : Nat → State} {e : Nat → Env} (h : EndlessWalk putspEnds putspBytes (s.reg 0) s u e) :
    ∃ e', s.env.MayBecome e' ∧ exec .putsp { s with env := e' } = .fault .stringNeverEnds := by
  obtain ⟨e', he, hw⟩ := h.covered putspEnds_zero
  exact ⟨e', he, congrArg (endOfWalk (encode .putsp)) (hw (walkBound { s with env := e' }))⟩

end Sys2Proof.Machine
end

