-- ==== Sys2Proof/Tests/Slice0.lean ====
section
/-! SUPPORT. Tests. The expected values are the spec's: the encodings of R67 written out bit by bit, and the vectors of
95_test_vectors.md (named V<n>) and the rules' corner cases. Then, for each statement with hypotheses, a witness: a
concrete state and operands that meet them all. -/

namespace Sys2Proof.Tests

open Sys2Proof Sys2Proof.Machine

/-! ### Builders -/

/-- Reset, with a PC, a COND, some registers and some cells. -/
def stateWith (pc : Word) (cond : Cond) (regs : List (RegIdx × Word)) (cells : List (Word × Word)) : State :=
  cells.foldl (fun s c => s.setStore c.1 c.2)
    (regs.foldl (fun s r => s.setReg r.1 r.2) { State.reset with pc := pc, cond := cond })

/-- An environment whose listed bytes are available at every poll, and whose reads and writes succeed. -/
def readyEnv (input : List Byte) : Env := { Env.reset with input := input, pollReady := ⟨[], true⟩ }

/-- An environment that fails every write. -/
def deafEnv : Env := { Env.reset with writeFails := ⟨[], true⟩ }

/-- What a field of the next state is, if there is one. -/
def after {α : Type} (o : Host.Outcome State Fault Refusal) (f : State → α) : Option α :=
  match o with
  | .next t => some (f t)
  | .fault _ => none
  | .refused _ => none

/-- The fault of a step, if it is one. -/
def faultOf (o : Host.Outcome State Fault Refusal) : Option Fault :=
  match o with
  | .next _ => none
  | .fault r => some r
  | .refused _ => none

/-- A prompt and a notice that show (R8: any finite byte strings). -/
def talkative : Config := { Config.default with inPrompt := [0x3F, 0x20], haltNotice := [0x42, 0x59] }

/-! ### Well-formedness: each check refuses -/

theorem test_wf_jmp_is_ret : (Instr.jmp 0 7 0x3F).wf = false := by decide
theorem test_wf_jmp_r6 : (Instr.jmp 0 6 0).wf = true := by decide
theorem test_wf_jmp_r7_unused : (Instr.jmp 1 7 0).wf = true := by decide
theorem test_wf_trap_unused_zero : (Instr.trap 0 0x25).wf = false := by decide
theorem test_wf_trap_unused_one : (Instr.trap 1 0x25).wf = true := by decide
theorem test_wf_trapIllegal_low : (Instr.trapIllegal 0x20).wf = false ∧ (Instr.trapIllegal 0x1F).wf = true := by decide
theorem test_wf_trapIllegal_high : (Instr.trapIllegal 0x25).wf = false ∧ (Instr.trapIllegal 0x26).wf = true := by decide

/-! ### Decoding: words written from R67, most significant bit first -/

theorem test_decode_add : decode 0b0001001010000011 = .add 1 2 0 3 := by decide
theorem test_decode_add_unused : decode 0b0001000001011000 = .add 0 1 3 0 := by decide
theorem test_decode_addi : decode 0b0001101110110000 = .addi 5 6 0b10000 := by decide
theorem test_decode_and : decode 0b0101100011000111 = .and 4 3 0 7 := by decide
theorem test_decode_andi : decode 0b0101010010101111 = .andi 2 2 0b01111 := by decide
theorem test_decode_not : decode 0b1001100101111111 = .not 4 5 0x3F := by decide
theorem test_decode_br : decode 0b0000100000000101 = .br true false false 5 := by decide
theorem test_decode_br_zp : decode 0b0000011100000000 = .br false true true 0x100 := by decide
theorem test_decode_jmp : decode 0b1100000010000000 = .jmp 0 2 0 := by decide
theorem test_decode_ret : decode 0b1100000111000000 = .ret 0 := by decide
theorem test_decode_jsr : decode 0b0100110000000000 = .jsr 0x400 := by decide
theorem test_decode_jsrr : decode 0b0100011011000001 = .jsrr 3 3 1 := by decide
theorem test_decode_ld : decode 0b0010001100000010 = .ld 1 0x102 := by decide
theorem test_decode_ldi : decode 0b1010110000000011 = .ldi 6 3 := by decide
theorem test_decode_ldr : decode 0b0110100010111111 = .ldr 4 2 0x3F := by decide
theorem test_decode_lea : decode 0b1110110000001011 = .lea 6 0x0B := by decide
theorem test_decode_st : decode 0b0011011111111110 = .st 3 0x1FE := by decide
theorem test_decode_sti : decode 0b1011111000000001 = .sti 7 1 := by decide
theorem test_decode_str : decode 0b0111001110100000 = .str 1 6 0x20 := by decide
theorem test_decode_trap : decode 0b1111111100100101 = .trap 0xF 0x25 := by decide
theorem test_decode_getc : decode 0b1111000000100000 = .getc := by decide
theorem test_decode_out : decode 0b1111000000100001 = .out := by decide
theorem test_decode_puts : decode 0b1111000000100010 = .puts := by decide
theorem test_decode_in : decode 0b1111000000100011 = .inp := by decide
theorem test_decode_putsp : decode 0b1111000000100100 = .putsp := by decide
theorem test_decode_halt : decode 0b1111000000100101 = .halt := by decide
theorem test_decode_trapIllegal : decode 0b1111000000100110 = .trapIllegal 0x26 ∧ decode 0xF01F = .trapIllegal 0x1F := by
  decide
theorem test_decode_rti : decode 0b1000000000000000 = .rti 0 ∧ decode 0x8FFF = .rti 0xFFF := by decide
theorem test_decode_res : decode 0b1101000100100011 = .res 0x123 := by decide
theorem test_tableWord_rejects : decodeTableWord 32 0x1283 = none ∧ decodeTableWord 16 0x11283 = none := by decide
theorem test_tableWord_reads : decodeTableWord 16 0x1283 = some (.add 1 2 0 3) := by decide

/-! ### ALU (section 2 of the vectors) -/

theorem test_add_overflow_V2_1 : after (step (stateWith 0x3000 .zro [(1, 0x7FFF)] [(0x3000, 0x1261)]))
    (fun t => (t.reg 1, t.cond, t.pc)) = some (0x8000, .neg, 0x3001) := by decide
theorem test_add_carry_V2_4 : after (step (stateWith 0x3000 .pos [(1, 0xFFFF), (2, 1)] [(0x3000, 0x1042)]))
    (fun t => (t.reg 0, t.cond, t.reg 1)) = some (0, .zro, 0xFFFF) := by decide
theorem test_addi_negative_V2_2 : after (step (stateWith 0x3000 .pos [(1, 0x0010)] [(0x3000, 0x1270)]))
    (fun t => (t.reg 1, t.cond)) = some (0, .zro) := by decide
theorem test_and_V2_10 : after (step (stateWith 0x3000 .zro [(1, 0xFF00), (2, 0x0FF0)] [(0x3000, 0x5042)]))
    (fun t => (t.reg 0, t.cond)) = some (0x0F00, .pos) := by decide
theorem test_andi_signExtends_V2_8 : after (step (stateWith 0x3000 .zro [(1, 0xA5A5)] [(0x3000, 0x507F)]))
    (fun t => (t.reg 0, t.cond)) = some (0xA5A5, .neg) := by decide
theorem test_not_inPlace_V2_15 : after (step (stateWith 0x3000 .zro [(1, 0x1234)] [(0x3000, 0x927F)]))
    (fun t => (t.reg 1, t.cond)) = some (0xEDCB, .neg) := by decide

/-! ### Control transfer (section 3) -/

theorem test_br_wraps_V3_3 : after (step (stateWith 0xFFF0 .neg [] [(0xFFF0, 0x0EFF)])) (·.pc) = some 0x00F0 := by decide
theorem test_br_notTaken_V3_6 : after (step (stateWith 0x3000 .neg [] [(0x3000, 0x0605)])) (·.pc) = some 0x3001 := by
  decide
theorem test_jmp_V3_10 : after (step (stateWith 0x3000 .pos [(0, 0xFFFF)] [(0x3000, 0xC03F)])) (fun t => (t.pc, t.cond)) =
    some (0xFFFF, .pos) := by decide
theorem test_ret_V3_9 : after (step (stateWith 0x3000 .zro [(7, 0x1234)] [(0x3000, 0xC1C0)])) (fun t => (t.pc, t.reg 7)) =
    some (0x1234, 0x1234) := by decide
theorem test_jsr_V3_11 : after (step (stateWith 0x3000 .zro [] [(0x3000, 0x4C00)])) (fun t => (t.reg 7, t.pc)) =
    some (0x3001, 0x2C01) := by decide
theorem test_jsrr_V3_14 : after (step (stateWith 0x3000 .zro [(1, 0x6000)] [(0x3000, 0x4040)]))
    (fun t => (t.reg 7, t.pc)) = some (0x3001, 0x6000) := by decide
theorem test_jsrr_r7_V3_15 : after (step (stateWith 0x3000 .zro [(7, 0x5000)] [(0x3000, 0x41C0)]))
    (fun t => (t.reg 7, t.pc)) = some (0x3001, 0x3001) := by decide

/-! ### Loads and stores (section 4) -/

theorem test_ld_back_V4_1 : after (step (stateWith 0x3000 .zro [] [(0x3000, 0x2100), (0x2F01, 0x8001)]))
    (fun t => (t.reg 0, t.cond, t.pc)) = some (0x8001, .neg, 0x3001) := by decide
theorem test_ldi_V1_4 : after (step (stateWith 0x0060 .zro [] [(0x0060, 0xA003), (0x0064, 0x00C8), (0x00C8, 0x00FF)]))
    (fun t => (t.reg 0, t.cond, t.pc)) = some (0x00FF, .pos, 0x0061) := by decide
theorem test_ldr_wraps_V4_5 : after (step (stateWith 0x3000 .zro [(1, 0xFFF0)] [(0x3000, 0x605F), (0x000F, 0x7FFF)]))
    (fun t => (t.reg 0, t.cond)) = some (0x7FFF, .pos) := by decide
theorem test_lea_flags_V4_7 : after (step (stateWith 0x8000 .zro [] [(0x8000, 0xE1FF)])) (fun t => (t.reg 0, t.cond)) =
    some (0x8000, .neg) := by decide
theorem test_st_V4_13 : after (step (stateWith 0x3010 .pos [(3, 0x00AA)] [(0x3010, 0x37FE)]))
    (fun t => (t.store 0x300F, t.cond)) = some (0x00AA, .pos) := by decide
theorem test_st_zero_unlists : after (step (stateWith 0x3010 .pos [] [(0x3010, 0x37FE), (0x300F, 0x5555)])) (·.mem) =
    some [(0x3010, 0x37FE)] := by decide
theorem test_sti_V4_10 : after (step (stateWith 0x3000 .neg [(7, 0x1111)] [(0x3000, 0xBE00), (0x3001, 0x6000)]))
    (fun t => (t.store 0x6000, t.cond)) = some (0x1111, .neg) := by decide
theorem test_str_V4_11 : after (step (stateWith 0x3000 .zro [(7, 0x2222)] [(0x3000, 0x7E7F)])) (fun t => t.store 0xFFFF) =
    some 0x2222 := by decide

/-! ### TRAP routines (section 5) -/

theorem test_getc_zeroExtends_V5_3 :
    after (step { stateWith 0x3000 .neg [] [(0x3000, 0xF020)] with env := readyEnv [0xFF, 0x41] })
      (fun t => (t.reg 0, t.cond, t.env.input, t.out)) = some (0x00FF, .pos, [0x41], []) := by decide
theorem test_getc_endOfInput_V5_4 : after (step (stateWith 0x3000 .neg [(0, 0x1234)] [(0x3000, 0xF020)]))
    (fun t => (t.reg 0, t.cond, t.run, t.stop)) = some (0x1234, .neg, .halted,
      some (.fatal .ioError ⟨none, some 0x20, 0xF020, 0x3000⟩)) := by decide
theorem test_out_V5_5 : after (step (stateWith 0x3000 .neg [(0, 0x1241)] [(0x3000, 0xF021)]))
    (fun t => (t.out, t.reg 0, t.cond)) = some ([0x41], 0x1241, .neg) := by decide
theorem test_puts_V1_5 :
    after (step (stateWith 0x3000 .neg [(0, 0x4000)] [(0x3000, 0xF022), (0x4000, 0x0048), (0x4001, 0x0069), (0x4003, 0x21)]))
      (fun t => (t.out, t.reg 0, t.cond, t.pc)) = some ([0x48, 0x69], 0x4000, .neg, 0x3001) := by decide
theorem test_puts_wholeWord_V5_7 : after (step (stateWith 0x3000 .zro [(0, 0xFFFF)] [(0x3000, 0xF022), (0xFFFF, 0x0100)]))
    (·.out) = some [0x00] := by decide
theorem test_in_V5_9 :
    after (step { stateWith 0x3000 .zro [] [(0x3000, 0xF023)] with cfg := talkative, env := readyEnv [0x79] })
      (fun t => (t.out, t.reg 0, t.cond)) = some ([0x3F, 0x20, 0x79], 0x0079, .pos) := by decide
theorem test_putsp_V5_10 :
    after (step (stateWith 0x3000 .zro [(0, 0x4000)] [(0x3000, 0xF024), (0x4000, 0x6548), (0x4001, 0x006C)])) (·.out) =
      some [0x48, 0x65, 0x6C] := by decide
theorem test_putsp_lowZero_V5_11 :
    after (step (stateWith 0x3000 .zro [(0, 0x4000)] [(0x3000, 0xF024), (0x4000, 0x4100)])) (·.out) = some [] := by decide
theorem test_halt_V5_13 : after (step { stateWith 0x3001 .pos [] [(0x3001, 0xF025)] with cfg := talkative })
    (fun t => (t.out, t.pc, t.run, t.stop)) = some ([0x42, 0x59], 0x3002, .halted, some .normal) := by decide
theorem test_trap_halt_V5_14 : after (step (stateWith 0x3000 .pos [] [(0x3000, 0xFF25)])) (fun t => (t.run, t.stop)) =
    some (.halted, some .normal) := by decide
theorem test_halt_noticeFails_V5_15 :
    after (step { stateWith 0x3000 .pos [] [(0x3000, 0xF025)] with cfg := talkative, env := deafEnv })
      (fun t => (t.out, t.stop.map StopStatus.exitCode)) = some ([], some 1) := by decide

/-! ### Illegal words (section 6) -/

theorem test_rti_V6_1 : after (step (stateWith 0x3000 .pos [] [(0x3000, 0x8FFF)])) (fun t => (t.pc, t.cond, t.stop)) =
    some (0x3001, .pos, some (.fatal .illegalOpcode ⟨some 0x8, none, 0x8FFF, 0x3000⟩)) := by decide
theorem test_res_V6_3 : after (step (stateWith 0x3000 .pos [] [(0x3000, 0xD000)])) (fun t => (t.run, t.stop)) =
    some (.halted, some (.fatal .illegalOpcode ⟨some 0xD, none, 0xD000, 0x3000⟩)) := by decide
theorem test_trapIllegal_V6_5 : after (step (stateWith 0x3000 .pos [] [(0x3000, 0xF026)])) (·.stop) =
    some (some (.fatal .illegalOpcode ⟨some 0xF, some 0x26, 0xF026, 0x3000⟩)) := by decide

/-! ### The keyboard (section 7) -/

theorem test_poll_none_V7_1 :
    after (step (stateWith 0x3000 .pos [] [(0x3000, 0xA000), (0x3001, 0xFE00), (0xFE02, 0x0041)]))
      (fun t => (t.reg 0, t.cond, t.store 0xFE00, t.store 0xFE02)) = some (0, .zro, 0, 0x0041) := by decide
theorem test_poll_some_V7_2 :
    after (step { stateWith 0x3000 .pos [] [(0x3000, 0xA000), (0x3001, 0xFE00)] with env := readyEnv [0x62] })
      (fun t => (t.reg 0, t.cond, t.store 0xFE00, t.store 0xFE02, t.env.input)) =
      some (0x8000, .neg, 0x8000, 0x0062, []) := by decide
theorem test_poll_withheld :
    after (step { stateWith 0x3000 .pos [] [(0x3000, 0xA000), (0x3001, 0xFE00)] with
        env := { readyEnv [0x62] with pollReady := ⟨[false], true⟩ } })
      (fun t => (t.reg 0, t.env.input, t.env.pollReady)) = some (0, [0x62], ⟨[], true⟩) := by decide
theorem test_kbdr_read_V7_10 :
    after (step { stateWith 0x3000 .zro [(1, 0xFE02)] [(0x3000, 0x6040), (0xFE02, 0x0041)] with env := readyEnv [0x62] })
      (fun t => (t.reg 0, t.cond, t.env.input)) = some (0x0041, .pos, [0x62]) := by decide
theorem test_fetch_kbsr_V7_8 : after (step { stateWith 0xFE00 .zro [] [] with env := readyEnv [0x62] })
    (fun t => (t.pc, t.store 0xFE02, t.stop)) =
    some (0xFE01, 0x0062, some (.fatal .illegalOpcode ⟨some 0x8, none, 0x8000, 0xFE00⟩)) := by decide

/-! ### Reset and images (sections 8 and 9) -/

theorem test_reset_cond_V8_2 : after (step (State.reset.withFetchWord 16 0x0401)) (·.pc) = some 0x3002 := by decide
theorem test_reset_zero_word_V8_1 : after (step State.reset) (fun t => (t.pc, t.cond, t.run)) =
    some (0x3001, .zro, .running) := by decide
theorem test_reset_is_a_start : State.reset = startState Config.default (Vector.replicate 8 0) [] Env.reset := by decide
theorem test_image_V9_1 : parseImage [0x30, 0x00, 0xE0, 0x00, 0xF0, 0x25] = some ⟨0x3000, [0xE000, 0xF025]⟩ := by decide
theorem test_image_truncated_V9_2 : loadImages [⟨0xFFFE, [1, 2, 3]⟩] = [(0xFFFE, 1), (0xFFFF, 2)] := by decide
theorem test_image_later_wins_V9_3 : loadImages [⟨0x3000, [0x1111, 0x2222]⟩, ⟨0x3001, [0x3333]⟩] =
    [(0x3000, 0x1111), (0x3001, 0x3333)] := by decide
theorem test_image_odd_V9_4 : parseImage [0x30, 0x00, 0xE0, 0x00, 0xF0] = none ∧ parseImage [0x30] = none := by decide
theorem test_image_origin_only_V9_5 : parseImage [0x40, 0x00] = some ⟨0x4000, []⟩ := by decide
theorem test_usage_error_V9_7 : (launch Config.default (Vector.replicate 8 0) [] Env.reset).exitCode 3 = some 2 := by
  decide
theorem test_exit_codes : StopStatus.exitCode .normal = 0 ∧
    StopStatus.exitCode (.fatal .ioError ⟨none, none, 0, 0⟩) = 1 ∧ FatalKind.code .ioError = 2 := by decide

/-! ### Witnesses: each statement's hypotheses are met -/

/-- A running state with a word at PC. -/
def at3000 (w : Word) : State := stateWith 0x3000 .zro [] [(0x3000, w)]

theorem witness_SextCopiesTheSignBit : 1 ≤ 5 ∧ 5 ≤ 16 ∧ 15 < 16 ∧ (sext (0x10#5)).getLsbD 15 = true := by decide
theorem witness_SetccFollowsTheValue_zero : flagOf 0x0000 = .zro := by decide
theorem witness_SetccFollowsTheValue_neg : 0x8000 ≤ (0x8000 : Word).toNat ∧ flagOf 0x8000 = .neg ∧ flagOf 0xFFFF = .neg := by
  decide
theorem witness_SetccFollowsTheValue_pos : 1 ≤ (0x7FFF : Word).toNat ∧ (0x7FFF : Word).toNat ≤ 0x7FFF ∧
    flagOf 0x7FFF = .pos ∧ flagOf 0x0001 = .pos := by decide
theorem witness_OnlyFlagSettersWriteCond_some : ∃ t, exec (.addi 0 0 1) State.reset = .next t ∧
    (Instr.addi 0 0 1).flagDest = some 0 := ⟨_, rfl, rfl⟩
theorem witness_OnlyFlagSettersWriteCond_none : ∃ t, exec (.st 0 0) State.reset = .next t ∧
    (Instr.st 0 0).flagDest = none := ⟨_, rfl, rfl⟩
theorem witness_OnlyBranchMayReadIt : (Instr.add 0 0 0 0).isBranch = false := by decide
theorem witness_RegisterWriters : ∃ t, exec (.jsr 0) State.reset = .next t ∧ (Instr.jsr 0).destination ≠ some 0 :=
  ⟨_, rfl, by decide⟩
theorem witness_OnlyControlTransferWritesPc : ∃ t, exec (.lea 0 0) State.reset = .next t ∧
    (Instr.lea 0 0).transfersControl = false := ⟨_, rfl, rfl⟩
theorem witness_OnlyStoresAndPollsWriteMemory : ∃ t, exec (.st 0 0) State.reset = .next t ∧
    (0x4000 : Word) ≠ State.reset.cfg.kbsrAddr ∧ (0x4000 : Word) ≠ State.reset.cfg.kbdrAddr ∧
    (∀ v, storeOf State.reset (.st 0 0) ≠ some (0x4000, v)) := by
  refine ⟨_, rfl, by decide, by decide, fun v h => ?_⟩
  have h1 : (pcRelative (0 : BitVec 9) State.reset) = 0x4000 := congrArg Prod.fst (Option.some.inj h)
  exact absurd h1 (by decide)
theorem witness_StepAppendsOutputAndConsumesInput : (after (step (at3000 0xF021)) (·.out)).isSome = true := by decide
theorem witness_StepKeepsInvariant : (at3000 0x3201).Inv ∧ (after (step (at3000 0x3201)) (·.mem)).isSome = true := by decide
theorem witness_StartMeetsInvariant : Config.default.wf := by decide
theorem witness_PollTakesTheFrontByteOrNone_byte : (readyEnv [0x61]).pollReady.answer = true ∧
    (readyEnv [0x61]).input = 0x61 :: [] := by decide
theorem witness_PollTakesTheFrontByteOrNone_empty : (readyEnv []).pollReady.answer = true ∧ (readyEnv []).input = [] ∧
    (readyEnv []).tail = .ended ∧ Env.reset.pollReady.answer = false := by decide
theorem witness_MemReadPollsAtKbsrOnly_some : State.reset.cfg.wf ∧
    (kbdPoll { State.reset with env := readyEnv [0x61] }).1 = some 0x61 := by decide
theorem witness_MemReadPollsAtKbsrOnly_none : State.reset.cfg.wf ∧ (kbdPoll State.reset).1 = none ∧
    (0xFE02 : Word) ≠ State.reset.cfg.kbsrAddr := by decide
theorem witness_WritesToTheDeviceCells : State.reset.cfg.wf := by decide
theorem witness_NextFetchSeesTheStore : ∃ t, exec (.st 1 0) State.reset = .next t ∧
    storeOf State.reset (.st 1 0) = some (0x3000, State.reset.reg 1) ∧ t.pc = 0x3000 ∧
    (0x3000 : Word) ≠ State.reset.cfg.kbsrAddr := ⟨_, rfl, by decide, by decide, by decide⟩
theorem witness_StepFetchesDecodesExecutes : State.reset.run = .running := rfl
theorem witness_StepRunsTheInstructionAtPc : (Instr.add 1 2 0 3).wf = true ∧ (at3000 0x1283).run = .running ∧
    (at3000 0x1283).pc ≠ (at3000 0x1283).cfg.kbsrAddr ∧
    (at3000 0x1283).store (at3000 0x1283).pc = encode (.add 1 2 0 3) := by decide
theorem witness_OnlyAHaltedCoreHasNoStep : faultOf (step (haltNormally State.reset)) = some .halted := by decide
theorem witness_RunningStepIsStuckOnlyInARoutine :
    faultOf (step { at3000 0xF020 with env := { Env.reset with tail := .silent } }) = some .inputNeverArrives := by decide
theorem witness_DecodeUndoesEncode : (Instr.jmp 0 6 0x3F).wf = true := by decide
theorem witness_IgnoredBitsChangeNothing_alu : (0x1042#16).extractLsb' 12 4 = (0x105A#16).extractLsb' 12 4 ∧
    (0x1042#16).extractLsb' 12 4 = 0b0001#4 ∧ (0x1042#16).getLsbD 5 = false ∧ (0x105A#16).getLsbD 5 = false ∧
    (0x1042#16).extractLsb' 6 6 = (0x105A#16).extractLsb' 6 6 ∧
    (0x1042#16).extractLsb' 0 3 = (0x105A#16).extractLsb' 0 3 := by decide
theorem witness_IgnoredBitsChangeNothing_not : (0x9040#16).extractLsb' 12 4 = (0x907F#16).extractLsb' 12 4 ∧
    (0x9040#16).extractLsb' 12 4 = 0b1001#4 ∧ (0x9040#16).extractLsb' 6 6 = (0x907F#16).extractLsb' 6 6 := by decide
theorem witness_IgnoredBitsChangeNothing_jmp : (0xC1C0#16).extractLsb' 12 4 = (0xCFFF#16).extractLsb' 12 4 ∧
    (0xC1C0#16).extractLsb' 12 4 = 0b1100#4 ∧ (0xC1C0#16).extractLsb' 6 3 = (0xCFFF#16).extractLsb' 6 3 := by decide
theorem witness_IgnoredBitsChangeNothing_jsrr : (0x4040#16).extractLsb' 12 4 = (0x467F#16).extractLsb' 12 4 ∧
    (0x4040#16).extractLsb' 12 4 = 0b0100#4 ∧ (0x4040#16).getLsbD 11 = false ∧ (0x467F#16).getLsbD 11 = false ∧
    (0x4040#16).extractLsb' 6 3 = (0x467F#16).extractLsb' 6 3 := by decide
theorem witness_IgnoredBitsChangeNothing_trap : (0xF025#16).extractLsb' 12 4 = (0xFF25#16).extractLsb' 12 4 ∧
    (0xF025#16).extractLsb' 12 4 = 0b1111#4 ∧ (0xF025#16).extractLsb' 0 8 = (0xFF25#16).extractLsb' 0 8 := by decide
theorem witness_IgnoredBitsChangeNothing_rti : (0x8000#16).extractLsb' 12 4 = (0x8FFF#16).extractLsb' 12 4 ∧
    (0x8000#16).extractLsb' 12 4 = 0b1000#4 := by decide
theorem witness_alu_words : (0x1283#16).extractLsb' 12 4 = 0b0001#4 ∧ (0x1283#16).getLsbD 5 = false ∧
    (0x103F#16).getLsbD 5 = true ∧ (0x5283#16).extractLsb' 12 4 = 0b0101#4 ∧ (0x5283#16).getLsbD 5 = false ∧
    (0x54A0#16).getLsbD 5 = true ∧ (0x997F#16).extractLsb' 12 4 = 0b1001#4 := by decide
theorem witness_ImmediateAndRegisterFormsAgree : (State.reset.setReg 2 0xFFFD).reg 2 = sext (0x1D#5) := by decide
theorem witness_control_words : (0x05FD#16).extractLsb' 12 4 = 0b0000#4 ∧ (0xC080#16).extractLsb' 12 4 = 0b1100#4 ∧
    (0x4805#16).extractLsb' 12 4 = 0b0100#4 ∧ (0x4805#16).getLsbD 11 = true ∧ (0x40C0#16).getLsbD 11 = false := by decide
theorem witness_BranchFollowsCond_taken : true = true ∧ State.reset.cond = .zro := by decide
theorem witness_BranchFollowsCond_notTaken : ¬((true = true ∧ State.reset.cond = .neg) ∨
    (false = true ∧ State.reset.cond = .zro) ∨ (true = true ∧ State.reset.cond = .pos)) := by decide
theorem witness_JumpGoesToTheBaseRegister : (∃ hi lo, Instr.jmp 5 7 9 = .jmp hi 7 lo) ∧ ∃ x, Instr.ret 3 = .ret x :=
  ⟨⟨5, 9, rfl⟩, 3, rfl⟩
theorem witness_load_store_words : (0x2202#16).extractLsb' 12 4 = 0b0010#4 ∧ (0xA003#16).extractLsb' 12 4 = 0b1010#4 ∧
    (0x68BF#16).extractLsb' 12 4 = 0b0110#4 ∧ (0xEC0B#16).extractLsb' 12 4 = 0b1110#4 ∧
    (0x37FE#16).extractLsb' 12 4 = 0b0011#4 ∧ (0xB001#16).extractLsb' 12 4 = 0b1011#4 ∧
    (0x7380#16).extractLsb' 12 4 = 0b0111#4 := by decide
theorem witness_LdiLoadsThroughThePointer : memRead (State.reset.pc + sext (0 : BitVec 9)) State.reset = (0, State.reset) := by
  decide
theorem witness_TrapWordsGiveTheirVector : (0xF025#16).extractLsb' 12 4 = 0b1111#4 ∧
    (decode 0xF025).vector = some 0x25 ∧ (decode 0xF026).illegal = true ∧ (decode 0xF01F).illegal = true := by decide
theorem witness_GetcReadsOneByte_byte : (readyEnv [0x61]).readFails.answer = false ∧
    ∃ rest, (readyEnv [0x61]).input = 0x61 :: rest := ⟨rfl, [], rfl⟩
theorem witness_GetcReadsOneByte_endless :
    ({ Env.reset with tail := .endless 0x61 } : Env).readFails.answer = false ∧
    ({ Env.reset with tail := .endless 0x61 } : Env).input = [] := by decide
theorem witness_GetcReadsOneByte_fails : Env.reset.input = [] ∧ Env.reset.tail = .ended := by decide
theorem witness_GetcReadsOneByte_waits : ({ Env.reset with tail := .silent } : Env).readFails.answer = false ∧
    ({ Env.reset with tail := .silent } : Env).input = [] := by decide
theorem witness_OutWritesTheLowByte : Env.reset.writeFails.answer = false ∧ deafEnv.writeFails.answer = true := by decide

/-- A string "Hi" at 0x4000. -/
def hiState : State := stateWith 0x3000 .zro [(0, 0x4000)] [(0x4000, 0x0048), (0x4001, 0x0069)]

theorem advance_reset (k : Nat) : (Choices.advance^[k]) Env.reset.writeFails = Env.reset.writeFails := by
  induction k with
  | zero => rfl
  | succ k ih => exact (Function.iterate_succ_apply' Choices.advance k _).trans (by rw [ih]; rfl)

theorem acceptsWrites_reset (n : Nat) : AcceptsWrites n Env.reset := fun k _ => by
  rw [advance_reset k]
  rfl

theorem witness_PutsWritesTheString : (∀ k ≤ 2, hiState.reg 0 + BitVec.ofNat 16 k ≠ hiState.cfg.kbsrAddr) ∧
    (∀ k < 2, hiState.store (hiState.reg 0 + BitVec.ofNat 16 k) ≠ 0) ∧
    hiState.store (hiState.reg 0 + BitVec.ofNat 16 2) = 0 ∧ AcceptsWrites 2 hiState.env :=
  ⟨by decide, by decide, by decide, acceptsWrites_reset 2⟩
theorem witness_PutspWritesTheString : (∀ k ≤ 2, hiState.reg 0 + BitVec.ofNat 16 k ≠ hiState.cfg.kbsrAddr) ∧
    (∀ k < 2, (hiState.store (hiState.reg 0 + BitVec.ofNat 16 k)).extractLsb' 0 8 ≠ 0x00#8) ∧
    (hiState.store (hiState.reg 0 + BitVec.ofNat 16 2)).extractLsb' 0 8 = 0x00#8 ∧ AcceptsWrites 2 hiState.env :=
  ⟨by decide, by decide, by decide, acceptsWrites_reset 2⟩
theorem witness_PutsFollowsItsLoop_ends : ∃ t, PutsLoop (State.reset.reg 0) State.reset true t :=
  ⟨_, .terminator (by decide)⟩
theorem witness_PutsFollowsItsLoop_fails :
    ∃ t, PutsLoop (hiState.reg 0) { hiState with env := deafEnv } false t :=
  ⟨_, .writeFails (by decide) (conOut_failed _ _ (by decide))⟩
theorem witness_PutspFollowsItsLoop_ends : State.reset.cfg.wf ∧
    ∃ t, PutspLoop (State.reset.reg 0) State.reset true t := ⟨by decide, _, .terminator (by decide)⟩
theorem witness_PutspFollowsItsLoop_fails : hiState.cfg.wf ∧
    ∃ t, PutspLoop (hiState.reg 0) { hiState with env := deafEnv } false t :=
  ⟨by decide, _, .lowFails (by decide) (conOut_failed _ _ (by decide))⟩

/-- Memory with every cell at 1. -/
def fullMemory : Memory := (List.range' 0 65536).map (fun a => (a, 1))

theorem read_full (o n a : Nat) (h1 : o ≤ a) (h2 : a < o + n) :
    Memory.read ((List.range' o n).map (fun a => (a, (1 : Word)))) a = 1 := by
  induction n generalizing o with
  | zero => omega
  | succ n ih =>
    rw [List.range'_succ, List.map_cons, Memory.read]
    split
    · rfl
    · exact ih (o + 1) (by omega) (by omega)

/-- No cell holds 0, every poll brings the byte 1, every write is accepted (V5.16). -/
def endlessState : State :=
  { State.reset with mem := fullMemory, env := { readyEnv [] with tail := .endless 1 } }

theorem endless_steady : Steady Config.default (fun _ => 1) 1 (walkState putsBytes (endlessState.reg 0) endlessState 0) :=
  ⟨rfl, rfl, rfl, rfl, rfl, read_full 0 65536 _ (by omega) (by decide), fun x _ _ => read_full 0 65536 _ (by omega) (by omega)⟩

/-- The walk of V5.16 never ends: the hypothesis of the third clause of PutsFollowsItsLoop is met. -/
theorem witness_PutsFollowsItsLoop_endless : ¬∃ r t, PutsLoop (endlessState.reg 0) endlessState r t := by
  rintro ⟨r, t, h⟩
  obtain ⟨n, hn⟩ := putsLoop_walk h
  have hu : stringWalk putsEnds putsBytes n (endlessState.reg 0) endlessState = .unfinished := by
    refine (stringWalk_unfinished_iff _ _ _ _ _).mpr fun k _ => ?_
    have hs := endless_steady.walk k
    rw [Nat.zero_add] at hs
    refine hs.goesOn_iff.mpr ?_
    unfold steadyWord
    split
    · exact (by decide : putsEnds kbsrReady = false)
    · split
      · exact (by decide : putsEnds (zext16 1) = false)
      · exact (by decide : putsEnds 1 = false)
  rw [hu] at hn
  cases r <;> cases hn

theorem witness_InPromptsReadsAndEchoes_promptFails : 0 < talkative.inPrompt.length ∧ AcceptsWrites 0 deafEnv ∧
    ¬AcceptsWrites 1 deafEnv :=
  ⟨by decide, fun k hk => by omega, fun h => absurd (h 0 (by omega)) (by decide)⟩
theorem witness_InPromptsReadsAndEchoes_byte : AcceptsWrites (Config.default.inPrompt.length + 1) (readyEnv [0x79]) ∧
    (readyEnv [0x79]).readFails.answer = false ∧ ∃ rest, (readyEnv [0x79]).input = 0x79 :: rest :=
  ⟨fun k hk => acceptsWrites_reset 1 k hk, rfl, [], rfl⟩
theorem witness_InPromptsReadsAndEchoes_echoFails : AcceptsWrites Config.default.inPrompt.length deafEnv ∧
    ¬AcceptsWrites (Config.default.inPrompt.length + 1) deafEnv ∧
    ({ deafEnv with input := [0x79] } : Env).readFails.answer = false :=
  ⟨fun k hk => absurd hk (Nat.not_lt_zero k), fun h => absurd (h 0 (by decide)) (by decide), rfl⟩
theorem witness_InPromptsReadsAndEchoes_readFails : AcceptsWrites Config.default.inPrompt.length Env.reset ∧
    Env.reset.input = [] ∧ Env.reset.tail = .ended := ⟨acceptsWrites_reset _, rfl, rfl⟩
theorem witness_InPromptsReadsAndEchoes_waits :
    AcceptsWrites Config.default.inPrompt.length { Env.reset with tail := .silent } ∧
    ({ Env.reset with tail := .silent } : Env).readFails.answer = false :=
  ⟨fun k hk => absurd hk (Nat.not_lt_zero k), rfl⟩
theorem witness_HaltStopsNormally : AcceptsWrites Config.default.haltNotice.length Env.reset ∧
    0 < talkative.haltNotice.length ∧ ¬AcceptsWrites 1 deafEnv :=
  ⟨acceptsWrites_reset _, by decide, fun h => absurd (h 0 (by omega)) (by decide)⟩
theorem witness_ConsoleFailureStopsAtOnce : ∃ t, exec .getc State.reset = .next t ∧ State.reset.stop = none ∧
    t.stop = some (.fatal .ioError (ioErrorInfo .getc State.reset)) := ⟨_, rfl, rfl, by decide⟩
theorem witness_ReservedOpcodesStopTheCore : (0x8000#16).extractLsb' 12 4 = 0b1000#4 ∧
    (0xD123#16).extractLsb' 12 4 = 0b1101#4 ∧ ∃ x, Instr.rti 1 = .rti x := ⟨by decide, by decide, 1, rfl⟩
theorem witness_UnrecognisedVectorStopsTheCore : ((0x1F : Byte).toNat < 0x20 ∨ 0x25 < (0x1F : Byte).toNat) ∧
    ((0x26 : Byte).toNat < 0x20 ∨ 0x25 < (0x26 : Byte).toNat) := by decide
theorem witness_CausesOfAStop : ∃ t, exec .halt State.reset = .next t ∧ Instr.halt.wf = true ∧
    State.reset.run = .running ∧ t.run = .halted := ⟨_, rfl, rfl, rfl, by decide⟩
theorem witness_IllegalWordStopIsPrecise : (at3000 0xD123).run = .running ∧
    (at3000 0xD123).pc ≠ (at3000 0xD123).cfg.kbsrAddr ∧
    (decode ((at3000 0xD123).store (at3000 0xD123).pc)).illegal = true := by decide
theorem witness_FetchAtKbsrPolls : (stateWith 0xFE00 .zro [] []).run = .running ∧ (stateWith 0xFE00 .zro [] []).cfg.wf ∧
    (stateWith 0xFE00 .zro [] []).pc = (stateWith 0xFE00 .zro [] []).cfg.kbsrAddr ∧
    (kbdPoll (stateWith 0xFE00 .zro [] [])).1 = none ∧
    (kbdPoll { stateWith 0xFE00 .zro [] [] with env := readyEnv [0x61] }).1 = some 0x61 := by decide
theorem witness_StartOfARun : Config.default.kbsrAddr ≠ 0x3000 := by decide
theorem witness_ImageGoesFromItsOriginUp : (0xFFFF : Nat) ≤ 0xFFFF ∧ (0xFFFF : Word).toNat ≤ 0xFFFF := by decide
theorem witness_OtherFilesAreLoadErrors : ([0x30] : List Byte).length % 2 = 1 ∧ ([] : List Byte).length < 2 ∧
    ¬(([0x40, 0x00] : List Byte).length % 2 = 1 ∨ ([0x40, 0x00] : List Byte).length < 2) := by decide
theorem witness_LaunchRunsOrReportsTheError_error :
    ∃ f ∈ [some [0x30, 0x00], none], (Option.bind f parseImage) = none := ⟨none, by simp, rfl⟩
theorem witness_LaunchRunsOrReportsTheError_runs :
    [some [0x30, 0x00, 0xF0, 0x25]].map (fun f => f.bind parseImage) = [⟨0x3000, [0xF025]⟩].map some := by decide

/-! ### Runs (R175) -/

/-- The run of a HALT word, in an environment that does not move: it ends after one step. -/
def haltRun : Nat → Option State
  | 0 => some (at3000 0xF025)
  | 1 => some (haltNormally ((at3000 0xF025).setPc 0x3001))
  | _ + 2 => none

theorem haltRun_isRun : IsRun haltRun where
  next n s t hs ht := by
    match n with
    | 0 =>
      obtain rfl := Option.some.inj hs
      obtain rfl := Host.Outcome.next.inj ht
      exact ⟨_, ⟨_, Env.MayBecome.refl _, rfl⟩, by decide⟩
    | 1 =>
      obtain rfl := Option.some.inj hs
      cases ht
    | _ + 2 => cases hs
  last n s hs hl := by
    match n with
    | 0 =>
      obtain rfl := Option.some.inj hs
      exact absurd rfl (hl (haltNormally ((at3000 0xF025).setPc 0x3001)))
    | _ + 1 => rfl
  after n hn := by
    match n with
    | 0 => cases hn
    | 1 => cases hn
    | _ + 2 => rfl

theorem test_run_ends : RunEnds haltRun := ⟨_, 1, _, rfl, rfl, rfl⟩
theorem test_run_reads_answered : ReadsAreAnswered haltRun := fun n s hs h => by
  match n with
  | 0 =>
    obtain rfl := Option.some.inj hs
    cases h
  | 1 =>
    obtain rfl := Option.some.inj hs
    cases h
  | _ + 2 => cases hs
theorem test_run_polls_fair : PollsAreFair haltRun := fun n hb _ => by
  obtain ⟨s, hs, -⟩ := hb (n + 2) (by omega)
  cases hs

/-- The polling idiom of P3, with a byte at the front of the stream. -/
def pollState : State :=
  { stateWith 0x3000 .zro [] [(0x3000, 0xA004), (0x3001, 0x07FE), (0x3005, 0xFE00)] with env := readyEnv [0x41] }

theorem test_pollAnswers : pollAnswers pollState = [true] ∧ pollAnswers (at3000 0xA004) = [] ∧
    pollAnswers { pollState with env := { readyEnv [0x41] with pollReady := ⟨[], false⟩ } } = [false] := by decide
theorem witness_poll_loop : PollLoopPlace Config.default 0x3000 4 0x1FE ∧
    PollLoop Config.default 0x3000 0 4 0x1FE 0x41 pollState :=
  ⟨⟨by decide, by decide, by decide, by decide, by decide⟩,
    ⟨rfl, rfl, by decide, by decide, by decide, [], rfl⟩⟩

end Sys2Proof.Tests
end

section
/-! PROOFS for the statements of 00_scope: the bits of the spec's `sext_N` and `zext_16` (R11). -/

namespace Sys2Proof.Machine

/-- R11, bit by bit. At `n = 0` both sides are `false`, so no lower bound on the width is needed. -/
theorem getLsbD_sext {n : Nat} (v : BitVec n) {i : Nat} (hi : i < 16) :
    (sext v).getLsbD i = if i < n then v.getLsbD i else v.getLsbD (n - 1) := by
  rw [sext, BitVec.getLsbD_signExtend, BitVec.msb_eq_getLsbD_last, decide_eq_true hi, Bool.true_and]

/-- R11: the word 0x00bb. -/
theorem zext16_eq_zero_append (b : Byte) : zext16 b = (0x00#8 ++ b : Word) :=
  BitVec.setWidth_eq_append (by decide)

/-- Settles O1: the library's sign extension read bit by bit, and its widening as an append of zeros. -/
theorem sextCopiesTheSignBit : Obligations.SextCopiesTheSignBit :=
  ⟨fun _ v _ _ _ hi => getLsbD_sext v hi, zext16_eq_zero_append⟩

end Sys2Proof.Machine
end

section
/-! PROOFS for the statements of 10_state: `setcc` (R24), who writes and reads COND (R25), the registers (R21) and PC
(R26), the invariant (R28, R29, R34), the console's record (R30, R171), and the halted core (R28, R60). -/

namespace Sys2Proof.Machine

/-! ### The values of `setcc` (R24) -/

/-- Bit 15 is the sign bit (R24). -/
theorem getLsbD_fifteen (v : Word) : v.getLsbD 15 = decide (0x8000 ≤ v.toNat) := BitVec.msb_eq_decide v

theorem flagOf_zero : flagOf 0x0000 = .zro := rfl

theorem flagOf_of_pos {v : Word} (h : 1 ≤ v.toNat) : flagOf v = if 0x8000 ≤ v.toNat then .neg else .pos := by
  have hv : v ≠ 0x0000 := by rintro rfl; simp at h
  rw [flagOf, if_neg hv, getLsbD_fifteen]
  simp only [decide_eq_true_eq]

/-- Settles O2: `setcc` writes `flagOf` of the value into COND, and `flagOf` is known on the three ranges. -/
theorem setccFollowsTheValue : Obligations.SetccFollowsTheValue := by
  intro v s
  have hs : setcc v s = { s with cond := flagOf v } := rfl
  refine ⟨fun h => ?_, fun h => ?_, fun h1 h => ?_⟩
  · rw [hs, h, flagOf_zero]
  · rw [hs, flagOf_of_pos (by omega), if_pos h]
  · rw [hs, flagOf_of_pos h1, if_neg (by omega)]

/-! ### The invariant (R28, R29, R34) -/

/-- Settles O9: no memory is listed, and the two conditions left are about fixed values. -/
theorem resetMeetsInvariant : Obligations.ResetMeetsInvariant := ⟨reset_mem_wf, by decide, by decide⟩

/-- Each shared operation keeps the invariant: a store keeps memory canonical, none changes the parameters, and the two
that stop the core record how. -/
theorem keptByOps_inv : KeptByOps State.Inv where
  memRead a s := fun ⟨hm, hc, hr⟩ => ⟨memRead_wf a hm, by simpa using hc, by simpa using hr⟩
  conOut b s := fun ⟨hm, hc, hr⟩ => ⟨by simpa using hm, by simpa using hc, by simpa using hr⟩
  kbdGet s := fun ⟨hm, hc, hr⟩ => ⟨by simpa using hm, by simpa using hc, by simpa using hr⟩
  raiseFatal k info s := fun ⟨hm, hc, _⟩ => ⟨hm, hc, by simp⟩
  haltNormally s := fun ⟨hm, hc, _⟩ => ⟨hm, hc, by simp⟩
  setReg r v s := id
  setPc a s := id
  setCond c s := id
  memWrite a v s := fun ⟨hm, hc, hr⟩ => ⟨memWrite_wf a v hm, hc, hr⟩

/-- Settles O8: the invariant is kept by each shared operation, and a step is a sequence of those. -/
theorem stepKeepsInvariant : Obligations.StepKeepsInvariant :=
  fun _ _ hs he => keptByOps_inv.step hs he

/-! ### The output log and the input stream (R30, R171) -/

/-- From `s` to `t` bytes were appended to `out` and taken off the front of the listed input; the parameters and what
follows the listed input are the same. -/
structure ConsoleAdvances (s t : State) : Prop where
  out : s.out <+: t.out
  input : t.env.input <:+ s.env.input
  tail : t.env.tail = s.env.tail
  cfg : t.cfg = s.cfg

/-- Where `out`, the stream and the parameters are untouched, nothing has advanced. -/
theorem ConsoleAdvances.of_eq {s t : State} (ho : t.out = s.out) (hi : t.env.input = s.env.input)
    (ht : t.env.tail = s.env.tail) (hc : t.cfg = s.cfg) : ConsoleAdvances s t :=
  ⟨by rw [ho], by rw [hi], ht, hc⟩

theorem ConsoleAdvances.trans {s t u : State} (h : ConsoleAdvances s t) (h' : ConsoleAdvances t u) :
    ConsoleAdvances s u :=
  ⟨h.out.trans h'.out, h'.input.trans h.input, h'.tail.trans h.tail, h'.cfg.trans h.cfg⟩

theorem kbdPoll_advances (s : State) : ConsoleAdvances s (kbdPoll s).2 := by
  cases h : s.env.pollReady.answer
  · rw [kbdPoll_notReady s h]
    exact .of_eq rfl rfl rfl rfl
  · rw [kbdPoll_ready s h]
    exact ⟨List.prefix_rfl, takeByte_input_suffix _, takeByte_tail _, rfl⟩

theorem memRead_advances (a : Word) (s : State) : ConsoleAdvances s (memRead a s).2 := by
  have hp := kbdPoll_advances s
  rcases memRead_env_cases a s with he | he
  · exact ⟨by simp, by simp [he], by simp [he], by simp⟩
  · exact ⟨by simp, by simpa [he] using hp.input, by simpa [he] using hp.tail, by simp⟩

theorem kbdGet_advances (s : State) : ConsoleAdvances s (kbdGet s).2 := by
  have ht := takeByte_tail { s.env with readFails := s.env.readFails.advance }
  have hi := takeByte_input_suffix { s.env with readFails := s.env.readFails.advance }
  unfold kbdGet
  dsimp only
  split
  · exact .of_eq rfl rfl rfl rfl
  · split <;> rename_i h <;> rw [h] at ht hi <;> exact ⟨List.prefix_rfl, hi, ht, rfl⟩

theorem conOut_advances (b : Byte) (s : State) : ConsoleAdvances s (conOut b s).2 := by
  rcases conOut_cases b s with ⟨_, h⟩ | ⟨_, h⟩ <;> rw [h]
  · exact ⟨List.prefix_append _ _, List.suffix_rfl, rfl, rfl⟩
  · exact .of_eq rfl rfl rfl rfl

theorem keptByOps_advances (s : State) : KeptByOps (ConsoleAdvances s) where
  memRead a u h := h.trans (memRead_advances a u)
  conOut b u h := h.trans (conOut_advances b u)
  kbdGet u h := h.trans (kbdGet_advances u)
  raiseFatal _ _ _ h := h.trans (.of_eq rfl rfl rfl rfl)
  haltNormally _ h := h.trans (.of_eq rfl rfl rfl rfl)
  setReg _ _ _ h := h.trans (.of_eq rfl rfl rfl rfl)
  setPc _ _ h := h.trans (.of_eq rfl rfl rfl rfl)
  setCond _ _ h := h.trans (.of_eq rfl rfl rfl rfl)
  memWrite _ _ _ h := h.trans (.of_eq rfl rfl rfl rfl)

/-- Settles O7: each shared operation lets the console only advance, and a step is a sequence of those. -/
theorem stepAppendsOutputAndConsumesInput : Obligations.StepAppendsOutputAndConsumesInput := by
  intro s t he
  obtain ⟨hout, hin, htail, hcfg⟩ := (keptByOps_advances s).step (.of_eq rfl rfl rfl rfl) he
  exact ⟨hout, hin, htail, hcfg⟩

/-! ### Where an instruction is stuck (I9, I10), and the halted core (R60) -/

/-- The trap vectors whose routine can raise a fault: GETC and IN wait for a byte, PUTS and PUTSP walk a string. -/
def Fault.RaisedBy (f : Fault) (v : Byte) : Prop :=
  (f = .inputNeverArrives ∧ (v = 0x20 ∨ v = 0x23)) ∨ (f = .stringNeverEnds ∧ (v = 0x22 ∨ v = 0x24))

theorem routineGetc_fault {instr : Word} {s : State} {f : Fault} (h : routineGetc instr s = .fault f) :
    f = .inputNeverArrives := by
  unfold routineGetc at h
  split at h <;> cases h
  rfl

theorem routineIn_fault {instr : Word} {s : State} {f : Fault} (h : routineIn instr s = .fault f) :
    f = .inputNeverArrives := by
  unfold routineIn at h
  split at h
  · cases h
  · split at h
    · cases h
    · cases h; rfl
    · split at h <;> cases h

theorem endOfWalk_fault {instr : Word} {w : Walk} {f : Fault} (h : endOfWalk instr w = .fault f) :
    f = .stringNeverEnds := by
  cases w <;> cases h
  rfl

theorem routineHalt_ne_fault (instr : Word) (s : State) (f : Fault) : routineHalt instr s ≠ .fault f := by
  unfold routineHalt
  split <;> exact fun h => by cases h

theorem trapDispatch_fault {instr : Word} {s : State} {f : Fault} (h : trapDispatch instr s = .fault f) :
    f.RaisedBy (lowByte instr) := by
  unfold trapDispatch at h
  split at h
  case h_1 hv => exact .inl ⟨routineGetc_fault h, .inl (BitVec.eq_of_toNat_eq hv)⟩
  case h_2 => cases h
  case h_3 hv => exact .inr ⟨endOfWalk_fault h, .inl (BitVec.eq_of_toNat_eq hv)⟩
  case h_4 hv => exact .inl ⟨routineIn_fault h, .inr (BitVec.eq_of_toNat_eq hv)⟩
  case h_5 hv => exact .inr ⟨endOfWalk_fault h, .inr (BitVec.eq_of_toNat_eq hv)⟩
  case h_6 => exact absurd h (routineHalt_ne_fault _ _ _)
  case h_7 => cases h

/-- Only a TRAP can be without a next state, and which fault it raises follows from its vector. -/
theorem exec_fault {i : Instr} {s : State} {f : Fault} (h : exec i s = .fault f) :
    ∃ v, i.vector = some v ∧ f.RaisedBy v := by
  cases i with
  | trap x v => exact ⟨v, rfl, lowByte_encode_trap x v ▸ trapDispatch_fault h⟩
  | getc => exact ⟨0x20, rfl, .inl ⟨routineGetc_fault h, .inl rfl⟩⟩
  | puts => exact ⟨0x22, rfl, .inr ⟨endOfWalk_fault h, .inl rfl⟩⟩
  | inp => exact ⟨0x23, rfl, .inl ⟨routineIn_fault h, .inr rfl⟩⟩
  | putsp => exact ⟨0x24, rfl, .inr ⟨endOfWalk_fault h, .inr rfl⟩⟩
  | halt => exact absurd h (routineHalt_ne_fault _ _ _)
  | _ => cases h

/-- Settles O18: the fault of an instruction is never `halted`, so a step that raises it has executed none. -/
theorem onlyAHaltedCoreHasNoStep : Obligations.OnlyAHaltedCoreHasNoStep := by
  refine fun s => ⟨fun h => ?_, step_halted⟩
  cases hr : s.run with
  | halted => rfl
  | running =>
    rw [step_running hr] at h
    obtain ⟨_, _, ⟨hf, _⟩ | ⟨hf, _⟩⟩ := exec_fault h <;> cases hf

/-! ### What an instruction does to the registers, PC and COND (R21, R25, R26) -/

/-- R0..R7, PC and COND are unchanged. -/
structure KeepsRegisters (s t : State) : Prop where
  regs : t.regs = s.regs
  pc : t.pc = s.pc
  cond : t.cond = s.cond

theorem KeepsRegisters.reg {s t : State} (h : KeepsRegisters s t) (r : RegIdx) : t.reg r = s.reg r :=
  congrArg (·.get r) h.regs

theorem KeepsRegisters.refl (s : State) : KeepsRegisters s s := ⟨rfl, rfl, rfl⟩

/-- Reads, console calls and stops write no register. -/
theorem keptByConsole_registers (s : State) : KeptByConsole (KeepsRegisters s) where
  memRead a u := fun ⟨hr, hp, hc⟩ => ⟨by simpa using hr, by simpa using hp, by simpa using hc⟩
  conOut b u := fun ⟨hr, hp, hc⟩ => ⟨by simpa using hr, by simpa using hp, by simpa using hc⟩
  kbdGet u := fun ⟨hr, hp, hc⟩ => ⟨by simpa using hr, by simpa using hp, by simpa using hc⟩
  raiseFatal _ _ _ := fun ⟨hr, hp, hc⟩ => ⟨hr, hp, hc⟩
  haltNormally _ := fun ⟨hr, hp, hc⟩ => ⟨hr, hp, hc⟩

theorem memRead_keepsRegisters (a : Word) (s : State) : KeepsRegisters s (memRead a s).2 :=
  (keptByConsole_registers s).memRead a s (.refl s)

theorem memWrite_keepsRegisters (a v : Word) {s t : State} (h : KeepsRegisters s t) :
    KeepsRegisters s (memWrite a v t) := ⟨h.regs, h.pc, h.cond⟩

/-- What an instruction does to the registers, PC and COND, by what kind of instruction it is. -/
inductive RegisterEffect (i : Instr) (s t : State) : Prop where
  /-- An instruction without a result writes none of them. -/
  | none (hf : i.flagDest = none) (hk : KeepsRegisters s t)
  /-- A result goes to the destination and COND (R25). -/
  | result (d : RegIdx) (v : Word) (u : State) (hf : i.flagDest = some d) (hk : KeepsRegisters s u)
      (ht : t = writeResult d v u)
  /-- GETC or IN stopped at a failing console call before its result (R132, D13). -/
  | ioError (d : RegIdx) (instr : Word) (u : State) (hf : i.flagDest = some d) (hk : KeepsRegisters s u)
      (ht : t = raiseIOError instr u)
  /-- A jump writes PC (R26). -/
  | jump (a : Word) (hj : i.transfersControl = true) (ht : t = s.setPc a)
  /-- A call writes R7 and PC (R105). -/
  | call (a : Word) (hc : i.isCall = true) (ht : t = (linkR7 s).setPc a)

theorem transfersControl_of_isCall {i : Instr} (h : i.isCall = true) : i.transfersControl = true := by
  cases i with
  | jsr | jsrr => rfl
  | _ => cases h

theorem flagDest_of_transfersControl {i : Instr} (h : i.transfersControl = true) : i.flagDest = none := by
  cases i with
  | br | jmp | ret | jsr | jsrr => rfl
  | _ => cases h

/-- How a routine with a result ends: the byte in R0, or an IOError before any register was written (R133, R136). -/
def EndsReading (instr : Word) (s t : State) : Prop :=
  ∃ u, KeepsRegisters s u ∧ ((∃ b, t = writeResult 0 (zext16 b) u) ∨ t = raiseIOError instr u)

theorem EndsReading.effect {i : Instr} {instr : Word} {s t : State} (hf : i.flagDest = some 0)
    (h : EndsReading instr s t) : RegisterEffect i s t := by
  obtain ⟨u, hk, ⟨b, ht⟩ | ht⟩ := h
  · exact .result 0 _ u hf hk ht
  · exact .ioError 0 _ u hf hk ht

theorem routineGetc_endsReading {instr : Word} {s t : State} (h : routineGetc instr s = .next t) :
    EndsReading instr s t := by
  have hg := (keptByConsole_registers s).kbdGet s (.refl s)
  unfold routineGetc at h
  split at h <;> rename_i hk <;> rw [hk] at hg <;> cases h
  · exact ⟨_, hg, .inl ⟨_, rfl⟩⟩
  · exact ⟨_, hg, .inr rfl⟩

theorem routineIn_endsReading {instr : Word} {s t : State} (h : routineIn instr s = .next t) :
    EndsReading instr s t := by
  have hc := keptByConsole_registers s
  have h1 := hc.conOutAll s.cfg.inPrompt (.refl s)
  unfold routineIn at h
  split at h <;> rename_i s1 hp <;> rw [hp] at h1
  · cases h; exact ⟨s1, h1, .inr rfl⟩
  · have h2 := hc.kbdGet s1 h1
    split at h
    · rename_i s2 hg
      rw [hg] at h2
      cases h; exact ⟨s2, h2, .inr rfl⟩
    · cases h
    · rename_i b s2 hg
      rw [hg] at h2
      have h3 := hc.conOut b s2 h2
      split at h <;> rename_i s3 ho <;> rw [ho] at h3 <;> cases h
      · exact ⟨s3, h3, .inr rfl⟩
      · exact ⟨s3, h3, .inl ⟨b, rfl⟩⟩

/-- A TRAP of the general row, by its vector. -/
theorem exec_trap_effect {x : BitVec 4} {v : Byte} {s t : State} (h : exec (.trap x v) s = .next t) :
    RegisterEffect (.trap x v) s t := by
  by_cases hv : v = 0x20#8 ∨ v = 0x23#8
  · have hf : (Instr.trap x v).flagDest = some 0 := if_pos hv
    obtain rfl | rfl := hv
    · exact (routineGetc_endsReading (exec_getc_forms (.inr ⟨x, rfl⟩) s ▸ h)).effect hf
    · exact (routineIn_endsReading (exec_in_forms (.inr ⟨x, rfl⟩) s ▸ h)).effect hf
  · have hf : (Instr.trap x v).flagDest = none := if_neg hv
    rcases (keptByConsole_registers s).trapDispatch (.refl s) h with hk | ⟨hl, _⟩
    · exact .none hf hk
    · exact absurd (lowByte_encode_trap x v ▸ hl) hv

/-- R21, R25, R26: every next state is one of these effects. -/
theorem exec_effect {i : Instr} {s t : State} (h : exec i s = .next t) : RegisterEffect i s t := by
  have hc := keptByConsole_registers s
  have h0 := KeepsRegisters.refl s
  cases i with
  | add dr sr1 x sr2 => exact .result dr _ s rfl h0 (Host.Outcome.next.inj h).symm
  | addi dr sr1 imm5 => exact .result dr _ s rfl h0 (Host.Outcome.next.inj h).symm
  | and dr sr1 x sr2 => exact .result dr _ s rfl h0 (Host.Outcome.next.inj h).symm
  | andi dr sr1 imm5 => exact .result dr _ s rfl h0 (Host.Outcome.next.inj h).symm
  | not dr sr x => exact .result dr _ s rfl h0 (Host.Outcome.next.inj h).symm
  | br n z p off =>
    have ht := (Host.Outcome.next.inj h).symm
    split at ht
    · exact .jump _ rfl ht
    · exact .jump s.pc rfl ht
  | jmp hi base lo => exact .jump _ rfl (Host.Outcome.next.inj h).symm
  | ret x => exact .jump _ rfl (Host.Outcome.next.inj h).symm
  | jsr off => exact .call _ rfl (Host.Outcome.next.inj h).symm
  | jsrr hi base lo => exact .call _ rfl (Host.Outcome.next.inj h).symm
  | ld dr off => exact .result dr _ _ rfl (memRead_keepsRegisters _ s) (Host.Outcome.next.inj h).symm
  | ldi dr off =>
    exact .result dr _ _ rfl (hc.memRead _ _ (memRead_keepsRegisters _ s)) (Host.Outcome.next.inj h).symm
  | ldr dr base off => exact .result dr _ _ rfl (memRead_keepsRegisters _ s) (Host.Outcome.next.inj h).symm
  | lea dr off => exact .result dr _ s rfl h0 (Host.Outcome.next.inj h).symm
  | st sr off => exact .none rfl (Host.Outcome.next.inj h ▸ memWrite_keepsRegisters _ _ h0)
  | sti sr off =>
    exact .none rfl (Host.Outcome.next.inj h ▸ memWrite_keepsRegisters _ _ (memRead_keepsRegisters _ s))
  | str sr base off => exact .none rfl (Host.Outcome.next.inj h ▸ memWrite_keepsRegisters _ _ h0)
  | trap x v => exact exec_trap_effect h
  | getc => exact (routineGetc_endsReading h).effect rfl
  | out => exact .none rfl (hc.routineOut h0 h)
  | puts => exact .none rfl (hc.routinePuts h0 h)
  | inp => exact (routineIn_endsReading h).effect rfl
  | putsp => exact .none rfl (hc.routinePutsp h0 h)
  | halt => exact .none rfl (hc.routineHalt h0 h)
  | trapIllegal v => exact .none rfl (hc.routineIllegal h0 h)
  | rti x => exact .none rfl (Host.Outcome.next.inj h ▸ hc.raiseFatal _ _ _ h0)
  | res x => exact .none rfl (Host.Outcome.next.inj h ▸ hc.raiseFatal _ _ _ h0)

/-- Settles O5: every effect but a jump and a call keeps PC. -/
theorem onlyControlTransferWritesPc : Obligations.OnlyControlTransferWritesPc := by
  intro i s t he hi
  cases exec_effect he with
  | none hf hk => exact hk.pc
  | result d v u hf hk ht => subst ht; exact hk.pc
  | ioError d instr u hf hk ht => subst ht; exact hk.pc
  | jump a hj ht => exact absurd hj (by simp [hi])
  | call a hc ht => exact absurd (transfersControl_of_isCall hc) (by simp [hi])

theorem destination_of_isCall {i : Instr} (h : i.isCall = true) : i.destination = some 7 := if_pos h

theorem destination_of_flagDest {i : Instr} {d : RegIdx} (h : i.flagDest = some d) : i.destination = some d := by
  have hc : ¬i.isCall = true := fun hc => by
    rw [flagDest_of_transfersControl (transfersControl_of_isCall hc)] at h
    cases h
  rw [Instr.destination, if_neg hc, h]

/-- Settles O4: each effect writes the destination at most. -/
theorem registerWriters : Obligations.RegisterWriters := by
  intro i s t r he hr
  cases exec_effect he with
  | none hf hk => exact hk.reg r
  | result d v u hf hk ht =>
    have hd : r ≠ d := fun e => hr (e ▸ destination_of_flagDest hf)
    rw [ht, writeResult_reg_other _ _ hd, hk.reg]
  | ioError d instr u hf hk ht => subst ht; exact hk.reg r
  | jump a hj ht => rw [ht, setPc_reg]
  | call a hc ht =>
    have h7 : r ≠ 7 := fun e => hr (e ▸ destination_of_isCall hc)
    rw [ht, setPc_reg, linkR7, setReg_reg_other _ _ h7]

/-- R25: an instruction without a result leaves COND. -/
theorem exec_cond_of_no_result {i : Instr} {s t : State} (hi : i.flagDest = none) (he : exec i s = .next t) :
    t.cond = s.cond := by
  cases exec_effect he with
  | none hf hk => exact hk.cond
  | result d v u hf hk ht => rw [hf] at hi; cases hi
  | ioError d instr u hf hk ht => rw [hf] at hi; cases hi
  | jump a hj ht => rw [ht, setPc_cond]
  | call a hc ht => rw [ht, setPc_cond, linkR7, setReg_cond]

/-- R25: an instruction with a result sets COND by it, unless it stops with an IOError before (R132, D13). -/
theorem exec_cond_of_result {i : Instr} {d : RegIdx} {s t : State} (hi : i.flagDest = some d)
    (he : exec i s = .next t) : t.cond = flagOf (t.reg d) ∨
      (t.cond = s.cond ∧ t.reg d = s.reg d ∧ ∃ info, t.stop = some (.fatal .ioError info)) := by
  cases exec_effect he with
  | none hf hk => rw [hf] at hi; cases hi
  | result d' v u hf hk ht =>
    obtain rfl : d' = d := Option.some.inj (hf.symm.trans hi)
    rw [ht, writeResult_cond, writeResult_reg_same]
    exact .inl rfl
  | ioError d' instr u hf hk ht =>
    subst ht
    exact .inr ⟨hk.cond, hk.reg d, _, rfl⟩
  | jump a hj ht => rw [flagDest_of_transfersControl hj] at hi; cases hi
  | call a hc ht => rw [flagDest_of_transfersControl (transfersControl_of_isCall hc)] at hi; cases hi

/-! ### No shared operation reads COND (R25) -/

theorem kbdPoll_setCond (c : Cond) (s : State) : kbdPoll (s.setCond c) = ((kbdPoll s).1, (kbdPoll s).2.setCond c) := by
  cases h : s.env.pollReady.answer
  · rw [kbdPoll_notReady s h, kbdPoll_notReady (s.setCond c) h]; rfl
  · rw [kbdPoll_ready s h, kbdPoll_ready (s.setCond c) h]; rfl

theorem kbdGet_setCond (c : Cond) (s : State) : kbdGet (s.setCond c) = ((kbdGet s).1, (kbdGet s).2.setCond c) := by
  cases h : s.env.readFails.answer
  · simp only [kbdGet, setCond_env, h, Bool.false_eq_true, if_false]
    rcases Env.takeByte _ with ⟨_ | b, e⟩ <;> rfl
  · rw [kbdGet_failed (.inl h), kbdGet_failed (s := s.setCond c) (.inl h)]; rfl

theorem conOut_setCond (b : Byte) (c : Cond) (s : State) :
    conOut b (s.setCond c) = ((conOut b s).1, (conOut b s).2.setCond c) := by
  cases h : s.env.writeFails.answer
  · rw [conOut_accepted b s h, conOut_accepted b (s.setCond c) h]; rfl
  · rw [conOut_failed b s h, conOut_failed b (s.setCond c) h]; rfl

theorem conOutAll_setCond (bs : List Byte) (c : Cond) (s : State) :
    conOutAll bs (s.setCond c) = ((conOutAll bs s).1, (conOutAll bs s).2.setCond c) := by
  induction bs generalizing s with
  | nil => rfl
  | cons b bs ih =>
    simp only [conOutAll, conOut_setCond]
    rcases conOut b s with ⟨ok, u⟩
    cases ok
    · rfl
    · exact ih u

theorem pollKeyboard_setCond (c : Cond) (s : State) : pollKeyboard (s.setCond c) = (pollKeyboard s).setCond c := by
  unfold pollKeyboard
  rw [kbdPoll_setCond]
  rcases kbdPoll s with ⟨r, u⟩
  cases r <;> rfl

theorem memRead_setCond (a : Word) (c : Cond) (s : State) :
    memRead a (s.setCond c) = ((memRead a s).1, (memRead a s).2.setCond c) := by
  by_cases h : a = s.cfg.kbsrAddr
  · subst h
    refine (memRead_kbsr (s.setCond c)).trans ?_
    rw [pollKeyboard_setCond, memRead_kbsr]; rfl
  · rw [memRead_plain h, memRead_plain (s := s.setCond c) h]; rfl

/-- A walk that starts with another COND ends as before, but for COND. -/
theorem endOfWalk_setCond {ends : Word → Bool} {bytes : Word → List Byte} (instr : Word) (c : Cond) (n : Nat) (a : Word)
    (s : State) : endOfWalk instr (stringWalk ends bytes n a (s.setCond c)) =
      mapNext (·.setCond c) (endOfWalk instr (stringWalk ends bytes n a s)) := by
  induction n generalizing a s with
  | zero => rfl
  | succ n ih =>
    simp only [stringWalk, memRead_setCond]
    split
    · rfl
    · rw [conOutAll_setCond]
      rcases conOutAll (bytes (memRead a s).1) (memRead a s).2 with ⟨ok, u⟩
      cases ok
      · rfl
      · exact ih (a + 1) u

/-! ### Outcomes but for COND (R25) -/

/-- An outcome with COND left out of its next state. -/
def forgetCond : Host.Outcome State Fault Refusal → Host.Outcome State Fault Refusal := mapNext (·.setCond .zro)

theorem forgetCond_mapNext (c : Cond) (o : Host.Outcome State Fault Refusal) :
    forgetCond (mapNext (·.setCond c) o) = forgetCond o := by
  cases o <;> rfl

theorem routineGetc_setCond (instr : Word) (c : Cond) (s : State) :
    forgetCond (routineGetc instr (s.setCond c)) = forgetCond (routineGetc instr s) := by
  unfold routineGetc
  rw [kbdGet_setCond]
  rcases kbdGet s with ⟨r, u⟩
  cases r <;> rfl

theorem routineOut_setCond (instr : Word) (c : Cond) (s : State) :
    forgetCond (routineOut instr (s.setCond c)) = forgetCond (routineOut instr s) := by
  unfold routineOut
  rw [setCond_reg, conOut_setCond]
  rcases conOut (lowByte (s.reg 0)) s with ⟨ok, u⟩
  cases ok <;> rfl

theorem routinePuts_setCond (instr : Word) (c : Cond) (s : State) :
    forgetCond (routinePuts instr (s.setCond c)) = forgetCond (routinePuts instr s) :=
  (congrArg forgetCond (endOfWalk_setCond instr c _ _ s)).trans (forgetCond_mapNext c _)

theorem routinePutsp_setCond (instr : Word) (c : Cond) (s : State) :
    forgetCond (routinePutsp instr (s.setCond c)) = forgetCond (routinePutsp instr s) :=
  (congrArg forgetCond (endOfWalk_setCond instr c _ _ s)).trans (forgetCond_mapNext c _)

theorem routineIn_setCond (instr : Word) (c : Cond) (s : State) :
    forgetCond (routineIn instr (s.setCond c)) = forgetCond (routineIn instr s) := by
  unfold routineIn
  rw [setCond_cfg, conOutAll_setCond]
  rcases conOutAll s.cfg.inPrompt s with ⟨ok, s1⟩
  cases ok
  · rfl
  · dsimp only
    rw [kbdGet_setCond]
    rcases kbdGet s1 with ⟨r, s2⟩
    cases r
    · dsimp only
      rw [conOut_setCond]
      rcases conOut _ s2 with ⟨ok, s3⟩
      cases ok <;> rfl
    · rfl
    · rfl

theorem routineHalt_setCond (instr : Word) (c : Cond) (s : State) :
    forgetCond (routineHalt instr (s.setCond c)) = forgetCond (routineHalt instr s) := by
  unfold routineHalt
  rw [setCond_cfg, conOutAll_setCond]
  rcases conOutAll s.cfg.haltNotice s with ⟨ok, u⟩
  cases ok <;> rfl

theorem trapDispatch_setCond (instr : Word) (c : Cond) (s : State) :
    forgetCond (trapDispatch instr (s.setCond c)) = forgetCond (trapDispatch instr s) := by
  unfold trapDispatch
  split
  · exact routineGetc_setCond instr c s
  · exact routineOut_setCond instr c s
  · exact routinePuts_setCond instr c s
  · exact routineIn_setCond instr c s
  · exact routinePutsp_setCond instr c s
  · exact routineHalt_setCond instr c s
  · rfl

/-- A load from a state with another COND leaves the very same state, since it writes COND. -/
theorem loadInto_setCond (dr : RegIdx) (ea : Word) (c : Cond) (s : State) :
    loadInto dr ea (s.setCond c) = loadInto dr ea s := by
  unfold loadInto
  rw [memRead_setCond]
  rfl

/-- R25, the readers: only BR's outcome, COND apart, depends on COND. -/
theorem exec_setCond {i : Instr} (hi : i.isBranch = false) (c : Cond) (s : State) :
    forgetCond (exec i (s.setCond c)) = forgetCond (exec i s) := by
  cases i with
  | br => cases hi
  | ld dr off => exact congrArg (forgetCond ∘ .next) (loadInto_setCond dr (pcRelative off s) c s)
  | ldr dr base off => exact congrArg (forgetCond ∘ .next) (loadInto_setCond dr (basePlusOffset base off s) c s)
  | ldi dr off =>
    show forgetCond (execLdi dr off (s.setCond c)) = forgetCond (execLdi dr off s)
    simp only [execLdi, pcRelative, setCond_pc, memRead_setCond, loadInto_setCond]
  | sti sr off =>
    show forgetCond (execSti sr off (s.setCond c)) = forgetCond (execSti sr off s)
    simp only [execSti, pcRelative, setCond_pc, memRead_setCond]
    rfl
  | trap x v => exact trapDispatch_setCond _ c s
  | getc => exact routineGetc_setCond _ c s
  | out => exact routineOut_setCond _ c s
  | puts => exact routinePuts_setCond _ c s
  | inp => exact routineIn_setCond _ c s
  | putsp => exact routinePutsp_setCond _ c s
  | halt => exact routineHalt_setCond _ c s
  | _ => rfl

/-- Settles O3: the writers by the effect of each instruction, the readers because no operation but BR's test reads
COND. -/
theorem onlyFlagSettersWriteCondAndOnlyBranchMayReadIt :
    Obligations.OnlyFlagSettersWriteCondAndOnlyBranchMayReadIt := by
  refine ⟨fun i s t he => ?_, fun _ s c hi => exec_setCond hi c s⟩
  split
  case h_1 hf => exact exec_cond_of_no_result hf he
  case h_2 d hf => exact exec_cond_of_result hf he

end Sys2Proof.Machine
end

section
/-! PROOFS for the statements of 20_memory: what `MemWrite` does (R46) and what a later write of the same cell leaves of
it, the poll of a KBSR read (R43, R47), the word a store leaves for the next fetch (R58), and who writes memory (R41,
R52). -/

namespace Sys2Proof.Machine

/-! ### A plain write (R46) -/

/-- Settles O13: a write is an update of one cell, and the other fields are the old ones by definition. -/
theorem memWriteStoresPlainly : Obligations.MemWriteStoresPlainly := by
  intro a v s
  have hcells : KeepsCellsBut [a] s (memWrite a v s) := fun b hb => setStore_store_other s v (by simpa using hb)
  exact ⟨setStore_store_same s a v, hcells, fun _ _ => rfl, rfl, rfl, ⟨rfl, rfl⟩, rfl, rfl, rfl⟩

/-- Putting in a cell that a filter drops, in whatever order the list is, leaves what the filter keeps. -/
theorem filter_insert_of_neg {p : Cell → Bool} {c : Cell} (hc : ¬p c = true) (m : Memory) :
    (Memory.insert c m).filter p = m.filter p := by
  induction m with
  | nil => exact List.filter_cons_of_neg hc
  | cons d m ih =>
    unfold Memory.insert
    split
    · exact List.filter_cons_of_neg hc
    · rw [List.filter_cons, List.filter_cons, ih]

/-- The cells but one are the same list after a write to that one. -/
theorem filter_write_same (m : Memory) (a : Nat) (v : Word) :
    (m.write a v).filter (fun c => c.1 != a) = m.filter (fun c => c.1 != a) := by
  unfold Memory.write
  dsimp only
  split
  · simp only [List.filter_filter, Bool.and_self]
  · rw [filter_insert_of_neg (by simp)]
    simp only [List.filter_filter, Bool.and_self]

/-- The later of two writes to one cell leaves nothing of the earlier one, canonical memory or not. -/
theorem write_write_same (m : Memory) (a : Nat) (v w : Word) : (m.write a v).write a w = m.write a w := by
  rw [Memory.write, filter_write_same]
  rfl

theorem setStore_setStore_same (s : State) (a v w : Word) : (s.setStore a v).setStore a w = s.setStore a w :=
  congrArg (fun m => { s with mem := m }) (write_write_same s.mem a.toNat v w)

/-! ### The poll of a KBSR read (R43) -/

theorem pollKeyboard_of_byte {s : State} {b : Byte} (h : (kbdPoll s).1 = some b) : pollKeyboard s =
    ((kbdPoll s).2.setStore s.cfg.kbsrAddr kbsrReady).setStore s.cfg.kbdrAddr (zext16 b) := by
  rcases pollKeyboard_cases s with ⟨b', h', hp⟩ | ⟨h', _⟩
  · obtain rfl : b' = b := Option.some.inj (h'.symm.trans h)
    exact hp
  · rw [h'] at h; cases h

theorem pollKeyboard_of_none {s : State} (h : (kbdPoll s).1 = none) :
    pollKeyboard s = (kbdPoll s).2.setStore s.cfg.kbsrAddr 0x0000 := by
  rcases pollKeyboard_cases s with ⟨b, h', _⟩ | ⟨_, hp⟩
  · rw [h'] at h; cases h
  · exact hp

/-- R43: where the poll has a byte, the KBSR cell is KBSR_READY. -/
theorem pollKeyboard_kbsr_of_byte {s : State} {b : Byte} (hw : s.cfg.wf) (h : (kbdPoll s).1 = some b) :
    (pollKeyboard s).store s.cfg.kbsrAddr = kbsrReady := by
  rw [pollKeyboard_of_byte h, setStore_store_other _ _ hw, setStore_store_same]

/-- R43: where the poll has a byte, the KBDR cell is that byte. -/
theorem pollKeyboard_kbdr_of_byte {s : State} {b : Byte} (h : (kbdPoll s).1 = some b) :
    (pollKeyboard s).store s.cfg.kbdrAddr = zext16 b := by
  rw [pollKeyboard_of_byte h, setStore_store_same]

/-- R43: where the poll has no byte, the KBSR cell is zero. -/
theorem pollKeyboard_kbsr_of_none {s : State} (h : (kbdPoll s).1 = none) :
    (pollKeyboard s).store s.cfg.kbsrAddr = 0x0000 := by
  rw [pollKeyboard_of_none h, setStore_store_same]

/-- R43: where the poll has no byte, the KBDR cell stays too. -/
theorem pollKeyboard_keepsCells_of_none {s : State} (h : (kbdPoll s).1 = none) :
    KeepsCellsBut [s.cfg.kbsrAddr] s (pollKeyboard s) := by
  intro a ha
  rw [pollKeyboard_of_none h, setStore_store_other _ _ (by simpa using ha), State.store, kbdPoll_mem, State.store]

theorem pollKeyboard_keepsCells (s : State) : KeepsCellsBut [s.cfg.kbsrAddr, s.cfg.kbdrAddr] s (pollKeyboard s) := by
  intro a ha
  obtain ⟨hs, hd⟩ : a ≠ s.cfg.kbsrAddr ∧ a ≠ s.cfg.kbdrAddr := by simpa using ha
  exact pollKeyboard_store_other s hs hd

/-- Outside memory a poll changes the environment only. -/
theorem pollKeyboard_frame (s : State) : KeepsRegsBut [] s (pollKeyboard s) ∧ (pollKeyboard s).pc = s.pc ∧
    (pollKeyboard s).cond = s.cond ∧ (pollKeyboard s).out = s.out ∧ (pollKeyboard s).env = (kbdPoll s).2.env ∧
    KeepsRun s (pollKeyboard s) :=
  ⟨fun _ _ => by simp [State.reg], by simp, by simp, by simp, by simp, by simp, by simp, by simp⟩

/-- Settles O12: a read of KBSR answers what its poll leaves in the cell, by whether the poll has a byte. -/
theorem memReadPollsAtKbsrOnly : Obligations.MemReadPollsAtKbsrOnly := by
  intro s hw
  refine ⟨fun b hb => ⟨pollKeyboard s, ?_⟩, fun hn => ⟨pollKeyboard s, ?_⟩, fun a ha => memRead_plain ha⟩
  · have hk := pollKeyboard_kbsr_of_byte hw hb
    exact ⟨by rw [memRead_kbsr, hk]; rfl, hk, pollKeyboard_kbdr_of_byte hb, pollKeyboard_keepsCells s,
      pollKeyboard_frame s⟩
  · have hk := pollKeyboard_kbsr_of_none hn
    exact ⟨by rw [memRead_kbsr, hk], hk, pollKeyboard_keepsCells_of_none hn, pollKeyboard_frame s⟩

/-! ### Writes to the device cells (R47) -/

/-- A poll of the console neither reads nor writes memory. -/
theorem kbdPoll_setStore (a v : Word) (s : State) :
    kbdPoll (s.setStore a v) = ((kbdPoll s).1, (kbdPoll s).2.setStore a v) := by
  cases h : s.env.pollReady.answer
  · rw [kbdPoll_notReady s h, kbdPoll_notReady (s.setStore a v) h]; rfl
  · rw [kbdPoll_ready s h, kbdPoll_ready (s.setStore a v) h]; rfl

/-- R47: the poll overwrites whatever the KBSR cell held. -/
theorem pollKeyboard_setStore_kbsr (v : Word) (s : State) :
    pollKeyboard (s.setStore s.cfg.kbsrAddr v) = pollKeyboard s := by
  have hp := kbdPoll_setStore s.cfg.kbsrAddr v s
  cases h : (kbdPoll s).1 with
  | some b =>
    rw [pollKeyboard_of_byte (b := b) (by rw [hp, h]), pollKeyboard_of_byte h, hp, setStore_cfg, setStore_setStore_same]
  | none => rw [pollKeyboard_of_none (by rw [hp, h]), pollKeyboard_of_none h, hp, setStore_cfg, setStore_setStore_same]

/-- Settles O14: the poll of a KBSR read overwrites the word written; a read of KBDR does not poll. -/
theorem writesToTheDeviceCells : Obligations.WritesToTheDeviceCells := by
  intro v s hw
  constructor
  · have hr := memRead_kbsr (s.setStore s.cfg.kbsrAddr v)
    rw [setStore_cfg, pollKeyboard_setStore_kbsr, ← memRead_kbsr] at hr
    exact hr
  · have hr := memRead_plain (s := memWrite s.cfg.kbdrAddr v s) hw.symm
    rw [hr]
    exact setStore_store_same s _ v

/-! ### The store of an instruction (R58, R114 to R116) -/

/-- ST, STI and STR end by the write that `storeOf` names; before it STI has read its pointer. -/
theorem KeptByConsole.exec_store {P : State → Prop} (h : KeptByConsole P) {i : Instr} {s t : State} {a v : Word}
    (hs : P s) (hi : storeOf s i = some (a, v)) (he : exec i s = .next t) : ∃ u, P u ∧ t = memWrite a v u := by
  cases i with
  | st sr off => cases hi; exact ⟨s, hs, (Host.Outcome.next.inj he).symm⟩
  | sti sr off =>
    cases hi
    refine ⟨(Machine.memRead (pcRelative off s) s).2, h.memRead _ _ hs, ?_⟩
    rw [← memRead_reg (pcRelative off s)]
    exact (Host.Outcome.next.inj he).symm
  | str sr base off => cases hi; exact ⟨s, hs, (Host.Outcome.next.inj he).symm⟩
  | _ => cases hi

/-- Settles O15: the store is the last thing the instruction does, and a fetch from another cell than KBSR is a plain
read. -/
theorem nextFetchSeesTheStore : Obligations.NextFetchSeesTheStore := by
  intro i s t a v hi he hpc ha
  obtain ⟨u, hu, rfl⟩ := (keptByOps_advances s).exec_store (.of_eq rfl rfl rfl rfl) hi he
  have hplain : memRead a (memWrite a v u) = ((memWrite a v u).store a, memWrite a v u) :=
    memRead_plain (hu.cfg ▸ ha : a ≠ u.cfg.kbsrAddr)
  rw [fetch_eq, hpc, hplain]
  exact setStore_store_same u a v

/-! ### Who writes memory (R41, R46, R52) -/

/-- The cell at an address holds what it held, and the device cells are where they were. -/
structure KeepsCell (a : Word) (s t : State) : Prop where
  cfg : t.cfg = s.cfg
  store : t.store a = s.store a

theorem KeepsCell.refl (a : Word) (s : State) : KeepsCell a s s := ⟨rfl, rfl⟩

theorem KeepsCell.writeResult {a : Word} {s t : State} (h : KeepsCell a s t) (r : RegIdx) (v : Word) :
    KeepsCell a s (writeResult r v t) := ⟨h.cfg, h.store⟩

theorem KeepsCell.memRead {a : Word} {s t : State} (h : KeepsCell a s t) (hs : a ≠ s.cfg.kbsrAddr)
    (hd : a ≠ s.cfg.kbdrAddr) (p : Word) : KeepsCell a s (memRead p t).2 :=
  ⟨by rw [memRead_cfg, h.cfg],
    by rw [memRead_store_other p t (by rwa [h.cfg]) (by rwa [h.cfg]), h.store]⟩

section
variable {a : Word} {s : State} (hs : a ≠ s.cfg.kbsrAddr) (hd : a ≠ s.cfg.kbdrAddr)
include hs hd

/-- Reads, console calls and stops write no cell but the device cells. -/
theorem keptByConsole_cell : KeptByConsole (KeepsCell a s) where
  memRead p u h := h.memRead hs hd p
  conOut b u := fun ⟨hc, hm⟩ => ⟨by simpa using hc, by simpa [State.store] using hm⟩
  kbdGet u := fun ⟨hc, hm⟩ => ⟨by simpa using hc, by simpa [State.store] using hm⟩
  raiseFatal _ _ _ := fun ⟨hc, hm⟩ => ⟨hc, hm⟩
  haltNormally _ := fun ⟨hc, hm⟩ => ⟨hc, hm⟩

theorem trapDispatch_keepsCell {instr : Word} {t : State} (he : trapDispatch instr s = .next t) : KeepsCell a s t := by
  rcases (keptByConsole_cell hs hd).trapDispatch (.refl a s) he with ht | ⟨-, b, u, hu, rfl⟩
  · exact ht
  · exact hu.writeResult 0 _

/-- R52: an instruction that stores nothing writes no cell but, by a poll, the device cells. -/
theorem exec_keepsCell_of_no_store {i : Instr} {t : State} (hi : storeOf s i = none) (he : exec i s = .next t) :
    KeepsCell a s t := by
  have h0 := KeepsCell.refl a s
  cases i with
  | st | sti | str => cases hi
  | add | addi | and | andi | not | lea => exact Host.Outcome.next.inj he ▸ h0.writeResult _ _
  | br =>
    rw [← Host.Outcome.next.inj he]
    split
    · exact ⟨rfl, rfl⟩
    · exact h0
  | jmp | ret | jsr | jsrr | rti | res => exact Host.Outcome.next.inj he ▸ ⟨rfl, rfl⟩
  | ld | ldr => exact Host.Outcome.next.inj he ▸ (h0.memRead hs hd _).writeResult _ _
  | ldi => exact Host.Outcome.next.inj he ▸ ((h0.memRead hs hd _).memRead hs hd _).writeResult _ _
  | trap => exact trapDispatch_keepsCell hs hd he
  | getc => exact trapDispatch_keepsCell (instr := encode .getc) hs hd he
  | out => exact trapDispatch_keepsCell (instr := encode .out) hs hd he
  | puts => exact trapDispatch_keepsCell (instr := encode .puts) hs hd he
  | inp => exact trapDispatch_keepsCell (instr := encode .inp) hs hd he
  | putsp => exact trapDispatch_keepsCell (instr := encode .putsp) hs hd he
  | halt => exact trapDispatch_keepsCell (instr := encode .halt) hs hd he
  | trapIllegal => exact (keptByConsole_cell hs hd).routineIllegal h0 he

end

/-- Settles O6: a store writes the cell `storeOf` names after reading at most its pointer, and every other instruction
is made of operations that keep the cell. -/
theorem onlyStoresAndPollsWriteMemory : Obligations.OnlyStoresAndPollsWriteMemory := by
  intro i s t a he hs hd hi
  cases hst : storeOf s i with
  | none => exact (exec_keepsCell_of_no_store hs hd hst he).store
  | some c =>
    obtain ⟨b, v⟩ := c
    obtain ⟨u, hu, rfl⟩ := (keptByConsole_cell hs hd).exec_store (.refl a s) hst he
    have hab : a ≠ b := fun e => hi v (e ▸ hst)
    rw [memWrite, setStore_store_other u v hab, hu.store]

end Sys2Proof.Machine
end

section
/-! PROOFS for the statements of 30_encoding: the decoder and the encoder undo each other (R66, R67, R73), the ignored
bits change nothing (R71), and a step runs the word at PC (R61, R63). -/

namespace Sys2Proof.Machine

/-! ### The fields of a word (R66)

The layouts of `encode` are appends. A field of an append lies in one of its two parts, and fields that stand side by
side in a word are one field of it: both are lemmas of the library on `BitVec.extractLsb'`. -/

theorem toFin_regBits (r : RegIdx) : (regBits r).toFin = r := rfl

theorem regBits_regField (w : Word) (lo : Nat) : regBits (regField w lo) = w.extractLsb' lo 3 := rfl

theorem ofBool_getLsbD (w : Word) (i : Nat) : BitVec.ofBool (w.getLsbD i) = w.extractLsb' i 1 := by
  ext j hj
  obtain rfl : j = 0 := by omega
  simp

theorem ofBool_eq_bit {w : Word} {i : Nat} {b : Bool} (h : w.getLsbD i = b) : BitVec.ofBool b = w.extractLsb' i 1 :=
  h ▸ ofBool_getLsbD w i

theorem ofNat_eq_of_toNat {n k : Nat} {v : BitVec n} (h : v.toNat = k) : BitVec.ofNat n k = v := by
  rw [← h, BitVec.ofNat_toNat, BitVec.setWidth_eq]

theorem extractLsb'_extractLsb' (w : Word) {lo n start len : Nat} (h : start + len ≤ n) :
    (w.extractLsb' lo n).extractLsb' start len = w.extractLsb' (lo + start) len := by
  ext j hj
  simp [show start + j < n by omega, Nat.add_assoc]

/-- Words that agree in bits 11:6 name the same two registers there. -/
theorem regField_eq_of_bits {w w' : Word} (h : w.extractLsb' 6 6 = w'.extractLsb' 6 6) :
    regField w 9 = regField w' 9 ∧ regField w 6 = regField w' 6 := by
  have hpart (start : Nat) (hs : start + 3 ≤ 6) : w.extractLsb' (6 + start) 3 = w'.extractLsb' (6 + start) 3 := by
    rw [← extractLsb'_extractLsb' w hs, h, extractLsb'_extractLsb' w' hs]
  exact ⟨congrArg BitVec.toFin (hpart 3 (by decide)), congrArg BitVec.toFin (hpart 0 (by decide))⟩

theorem recognisedVector_iff (v : Byte) : recognisedVector v = true ↔ 0x20 ≤ v.toNat ∧ v.toNat ≤ 0x25 := by
  simp [recognisedVector, BitVec.le_def]

/-! ### Decoding an encoded instruction (R66, R67) -/

/-- Each field the decoder reads from the word is the operand that `encode` put there. Where two rows match the word,
`wf` says which of them the decoder takes (log entry 7). -/
theorem decode_encode {i : Instr} (hw : i.wf = true) : decode (encode i) = i := by
  cases i
  case getc | out | puts | inp | putsp | halt => rfl
  all_goals
    simp (disch := decide) only [encode, decode, decodeTrap, regField, toFin_regBits,
      BitVec.extractLsb'_append_eq_of_add_le, BitVec.extractLsb'_append_eq_of_le, BitVec.extractLsb'_eq_self,
      BitVec.getLsbD_append, BitVec.getLsbD_ofBool, BitVec.reduceGetLsb, BitVec.reduceToNat, Nat.reduceSub,
      Nat.reduceLT, reduceIte, Bool.false_eq_true, Bool.true_and, decide_true]
  case jmp hi base lo => exact if_neg (by simpa [Instr.wf, imp_iff_not_or] using hw)
  case ret lo => exact if_pos ⟨trivial, rfl⟩
  case trap x v => exact if_neg (by simpa [Instr.wf] using hw)
  case trapIllegal v =>
    have hv := mt (recognisedVector_iff v).2 (by simpa [Instr.wf] using hw)
    split
    case h_7 => rfl
    all_goals omega

/-- Settles O20. -/
theorem decodeUndoesEncode : Obligations.DecodeUndoesEncode := fun _ hw => decode_encode hw

/-! ### Encoding a decoded word (R73) -/

section
variable {w : Word}

theorem encode_jmp_fields (hop : 0b1100#4 = w.extractLsb' 12 4) :
    encode (.jmp (w.extractLsb' 9 3) (regField w 6) (w.extractLsb' 0 6)) = w := by
  simp (disch := rfl) only [encode, hop, regBits_regField, BitVec.extractLsb'_append_extractLsb'_eq_extractLsb',
    BitVec.extractLsb'_eq_self]

theorem encode_trap_fields (hop : 0b1111#4 = w.extractLsb' 12 4) :
    encode (.trap (w.extractLsb' 8 4) (w.extractLsb' 0 8)) = w := by
  simp (disch := rfl) only [encode, hop, BitVec.extractLsb'_append_extractLsb'_eq_extractLsb',
    BitVec.extractLsb'_eq_self]

/-- The rows with bits 11:8 zero have the word of the general row with the same fields. -/
theorem decodeTrap_reads (hop : 0b1111#4 = w.extractLsb' 12 4) :
    (decodeTrap w).wf = true ∧ encode (decodeTrap w) = w := by
  have hw := encode_trap_fields hop
  unfold decodeTrap
  dsimp only
  split
  case isFalse hx => exact ⟨by simpa [Instr.wf] using hx, hw⟩
  case isTrue hx =>
    rw [hx] at hw
    split
    case h_7 =>
      have hv : ¬recognisedVector (w.extractLsb' 0 8) = true := by
        rw [recognisedVector_iff]
        grind
      exact ⟨by simpa [Instr.wf] using hv, hw⟩
    all_goals
      rename_i hv
      rw [← ofNat_eq_of_toNat hv] at hw
      exact ⟨rfl, hw⟩

end

/-- Case `h_n` is opcode `n - 1`. The opcode and the fields that an instruction was decoded from, put side by side
again, are the whole word. -/
theorem decode_reads (w : Word) : (decode w).wf = true ∧ encode (decode w) = w := by
  unfold decode
  split
  case h_16 =>
    have hop : (w.extractLsb' 12 4).toNat = 15 := by grind
    exact decodeTrap_reads (ofNat_eq_of_toNat hop)
  all_goals
    rename_i hop
    replace hop := ofNat_eq_of_toNat hop
  case h_13 =>
    have hw := encode_jmp_fields hop
    split
    case isTrue h => exact ⟨rfl, by rwa [h.1, h.2] at hw⟩
    case isFalse h => exact ⟨by simpa [Instr.wf, imp_iff_not_or] using h, hw⟩
  case' h_2 | h_5 | h_6 => split
  case' h_2.isTrue hb | h_5.isTrue hb | h_6.isTrue hb => replace hb : 1#1 = _ := ofBool_eq_bit hb
  case' h_2.isFalse hb | h_5.isFalse hb | h_6.isFalse hb =>
    replace hb : 0#1 = _ := ofBool_eq_bit (Bool.eq_false_of_not_eq_true hb)
  all_goals
    refine ⟨rfl, ?_⟩
    simp (disch := rfl) only [*, encode, ofBool_getLsbD, regBits_regField,
      BitVec.extractLsb'_append_extractLsb'_eq_extractLsb', BitVec.extractLsb'_eq_self]

theorem decode_wf (w : Word) : (decode w).wf = true := (decode_reads w).1

theorem encode_decode (w : Word) : encode (decode w) = w := (decode_reads w).2

/-- Settles O21. -/
theorem everyWordHasOneReading : Obligations.EveryWordHasOneReading := decode_reads

/-- Settles O22: each is one word, and the decoder computes. -/
theorem exampleWordsDecode : Obligations.ExampleWordsDecode := by
  unfold Obligations.ExampleWordsDecode
  decide

/-! ### The step (R61, R63) -/

/-- Settles O16: `step_running`, with the fetch as `fetch_eq` has it, the read at PC and the increment of PC. -/
theorem stepFetchesDecodesExecutes : Obligations.StepFetchesDecodesExecutes := by
  intro s hr
  rw [step_running hr, fetch_eq]

/-- Settles O17: away from KBSR_ADDR the fetch is a plain read, of a word that decodes to the instruction. -/
theorem stepRunsTheInstructionAtPc : Obligations.StepRunsTheInstructionAtPc := by
  intro i s hw hr hpc hi
  rw [step_running hr, fetch_eq, memRead_plain hpc, hi, decode_encode hw]

/-! ### The ignored bits (R71) -/

section
variable {w : Word}

theorem decode_add (hop : w.extractLsb' 12 4 = 0b0001#4) (h5 : w.getLsbD 5 = false) :
    decode w = .add (regField w 9) (regField w 6) (w.extractLsb' 3 2) (regField w 0) := by
  simp only [decode, hop, BitVec.reduceToNat, h5, Bool.false_eq_true, if_false]

theorem decode_and (hop : w.extractLsb' 12 4 = 0b0101#4) (h5 : w.getLsbD 5 = false) :
    decode w = .and (regField w 9) (regField w 6) (w.extractLsb' 3 2) (regField w 0) := by
  simp only [decode, hop, BitVec.reduceToNat, h5, Bool.false_eq_true, if_false]

theorem decode_not (hop : w.extractLsb' 12 4 = 0b1001#4) :
    decode w = .not (regField w 9) (regField w 6) (w.extractLsb' 0 6) := by
  simp only [decode, hop, BitVec.reduceToNat]

theorem decode_jsrr (hop : w.extractLsb' 12 4 = 0b0100#4) (h11 : w.getLsbD 11 = false) :
    decode w = .jsrr (w.extractLsb' 9 2) (regField w 6) (w.extractLsb' 0 6) := by
  simp only [decode, hop, BitVec.reduceToNat, h11, Bool.false_eq_true, if_false]

theorem decode_trap (hop : w.extractLsb' 12 4 = 0b1111#4) : decode w = decodeTrap w := by
  simp only [decode, hop, BitVec.reduceToNat]

theorem decode_rti (hop : w.extractLsb' 12 4 = 0b1000#4) : decode w = .rti (w.extractLsb' 0 12) := by
  simp only [decode, hop, BitVec.reduceToNat]

theorem decode_res (hop : w.extractLsb' 12 4 = 0b1101#4) : decode w = .res (w.extractLsb' 0 12) := by
  simp only [decode, hop, BitVec.reduceToNat]

/-- Both rows of opcode 0b1100 jump to BaseR; RET's has BaseR = 7 (R102). -/
theorem exec_decode_jmp (hop : w.extractLsb' 12 4 = 0b1100#4) (s : State) :
    exec (decode w) s = .next (jumpToReg (regField w 6) s) := by
  simp only [decode, hop, BitVec.reduceToNat]
  split
  case isTrue h => rw [h.2]; rfl
  case isFalse => rfl

theorem decodeTrap_vector (w : Word) : (decodeTrap w).vector = some (lowByte w) := by
  unfold decodeTrap
  dsimp only
  split
  case isFalse => rfl
  case isTrue =>
    split
    case h_7 => rfl
    all_goals
      rename_i hv
      exact congrArg some (ofNat_eq_of_toNat hv)

/-- Whichever row of TRAP a word is read as, it runs the routine of its low byte (R130). -/
theorem exec_decode_trap (hop : w.extractLsb' 12 4 = 0b1111#4) (s : State) :
    exec (decode w) s = trapDispatch w s := by
  have hv : (decode w).vector = some (lowByte w) := decode_trap hop ▸ decodeTrap_vector w
  rw [exec_trapDispatch hv (decode_wf w), encode_decode]

/-- RTI and RES stop the core with their own word in the record (R150, R151). -/
theorem exec_decode_reserved (hop : w.extractLsb' 12 4 = 0b1000#4 ∨ w.extractLsb' 12 4 = 0b1101#4) (s : State) :
    exec (decode w) s = .next (raiseIllegalOpcode w none s) := by
  have hw := encode_decode w
  rcases hop with hop | hop
  · rw [decode_rti hop] at hw ⊢
    rw [exec, execRti, hw]
  · rw [decode_res hop] at hw ⊢
    rw [exec, execRes, hw]

end

theorem raiseIllegalOpcode_forgetWord {w w' : Word} (hop : w.extractLsb' 12 4 = w'.extractLsb' 12 4) (v : Option Byte)
    (s : State) : (raiseIllegalOpcode w v s).forgetWord = (raiseIllegalOpcode w' v s).forgetWord := by
  simp [raiseIllegalOpcode, raiseFatal, State.forgetWord, StopStatus.forgetWord, hop]

section
/-! A routine uses the TRAP word in the record of an IOError only, and of that record the word alone is not given by the
vector (R132). -/

variable {w w' : Word} (hv : lowByte w = lowByte w') (s : State)
include hv

theorem raiseIOError_forgetWord : (raiseIOError w s).forgetWord = (raiseIOError w' s).forgetWord := by
  simp [raiseIOError, raiseFatal, State.forgetWord, StopStatus.forgetWord, hv]

theorem next_raiseIOError_forgetWord :
    mapNext State.forgetWord (.next (raiseIOError w s)) = mapNext State.forgetWord (.next (raiseIOError w' s)) :=
  congrArg Host.Outcome.next (raiseIOError_forgetWord hv s)

theorem routineGetc_forgetWord :
    mapNext State.forgetWord (routineGetc w s) = mapNext State.forgetWord (routineGetc w' s) := by
  unfold routineGetc
  split
  · rfl
  · exact next_raiseIOError_forgetWord hv _
  · rfl

theorem routineOut_forgetWord :
    mapNext State.forgetWord (routineOut w s) = mapNext State.forgetWord (routineOut w' s) := by
  unfold routineOut orIOError
  split
  · rfl
  · exact next_raiseIOError_forgetWord hv _

theorem endOfWalk_forgetWord (r : Walk) :
    mapNext State.forgetWord (endOfWalk w r) = mapNext State.forgetWord (endOfWalk w' r) := by
  cases r with
  | finished t => rfl
  | failed t => exact next_raiseIOError_forgetWord hv t
  | unfinished => rfl

theorem routineIn_forgetWord :
    mapNext State.forgetWord (routineIn w s) = mapNext State.forgetWord (routineIn w' s) := by
  unfold routineIn
  split
  · exact next_raiseIOError_forgetWord hv _
  · split
    · exact next_raiseIOError_forgetWord hv _
    · rfl
    · split
      · exact next_raiseIOError_forgetWord hv _
      · rfl

theorem routineHalt_forgetWord :
    mapNext State.forgetWord (routineHalt w s) = mapNext State.forgetWord (routineHalt w' s) := by
  unfold routineHalt
  split
  · rfl
  · exact next_raiseIOError_forgetWord hv _

theorem trapDispatch_forgetWord (hop : w.extractLsb' 12 4 = w'.extractLsb' 12 4) :
    mapNext State.forgetWord (trapDispatch w s) = mapNext State.forgetWord (trapDispatch w' s) := by
  unfold trapDispatch
  rw [← hv]
  split
  · exact routineGetc_forgetWord hv s
  · exact routineOut_forgetWord hv s
  · exact endOfWalk_forgetWord hv _
  · exact routineIn_forgetWord hv s
  · exact endOfWalk_forgetWord hv _
  · exact routineHalt_forgetWord hv s
  · rw [routineIllegal, routineIllegal, hv]
    exact congrArg Host.Outcome.next (raiseIllegalOpcode_forgetWord hop _ s)

end

/-- Settles O23: `exec` drops the ignored bits of the first four rows; a TRAP, RTI or RES word acts by its vector or
opcode alone, its record apart. -/
theorem ignoredBitsChangeNothing : Obligations.IgnoredBitsChangeNothing := by
  intro w w' s hop
  refine ⟨fun h h5 h5' hregs h0 => ?_, fun h hregs => ?_, fun h hbase => ?_, fun h h11 h11' hbase => ?_,
    fun h hv => ?_, fun h => ?_⟩
  · obtain ⟨h9, h6⟩ := regField_eq_of_bits hregs
    have h0 : regField w 0 = regField w' 0 := congrArg BitVec.toFin h0
    rcases h with h | h
    · rw [decode_add h h5, decode_add (hop ▸ h) h5', h9, h6, h0]
      rfl
    · rw [decode_and h h5, decode_and (hop ▸ h) h5', h9, h6, h0]
      rfl
  · obtain ⟨h9, h6⟩ := regField_eq_of_bits hregs
    rw [decode_not h, decode_not (hop ▸ h), h9, h6]
    rfl
  · rw [exec_decode_jmp h, exec_decode_jmp (hop ▸ h), regField, hbase]
    rfl
  · rw [decode_jsrr h h11, decode_jsrr (hop ▸ h) h11', regField, hbase]
    rfl
  · rw [exec_decode_trap h, exec_decode_trap (hop ▸ h)]
    exact trapDispatch_forgetWord hv s hop
  · rw [exec_decode_reserved h, exec_decode_reserved (hop ▸ h)]
    exact congrArg Host.Outcome.next (raiseIllegalOpcode_forgetWord hop none s)

end Sys2Proof.Machine
end

section
/-! PROOFS for the statements of 40_alu: ADD, AND and NOT are read from their words (R90 to R94) and complete with one
write of a flag-setting result; the immediate and register forms agree (R96). -/

namespace Sys2Proof.Machine

/-! ### The words of the immediate forms -/

section
variable {w : Word}

theorem decode_addi (hop : w.extractLsb' 12 4 = 0b0001#4) (h5 : w.getLsbD 5 = true) :
    decode w = .addi (regField w 9) (regField w 6) (w.extractLsb' 0 5) := by
  simp only [decode, hop, BitVec.reduceToNat, h5, if_true]

theorem decode_andi (hop : w.extractLsb' 12 4 = 0b0101#4) (h5 : w.getLsbD 5 = true) :
    decode w = .andi (regField w 9) (regField w 6) (w.extractLsb' 0 5) := by
  simp only [decode, hop, BitVec.reduceToNat, h5, if_true]

end

/-! ### The write of a flag-setting result (R25)

The value is an argument of `writeResult`, so the sources were read in the state before the write. -/

theorem writeResult_getsResult (dr : RegIdx) (v : Word) (s : State) : GetsResult dr v s (writeResult dr v s) :=
  ⟨writeResult_reg_same s dr v, writeResult_cond s dr v,
    fun _ hr => writeResult_reg_other s v (List.ne_of_not_mem_cons hr)⟩

theorem writeResult_frame (dr : RegIdx) (v : Word) (s : State) :
    (writeResult dr v s).pc = s.pc ∧ KeepsCellsBut [] s (writeResult dr v s) ∧ KeepsConsole s (writeResult dr v s) ∧
    KeepsRun s (writeResult dr v s) :=
  ⟨writeResult_pc s dr v, fun a _ => writeResult_store s dr v a, ⟨writeResult_out s dr v, writeResult_env s dr v⟩,
    writeResult_run s dr v, writeResult_stop s dr v, writeResult_cfg s dr v⟩

/-- What R90 to R94 say of an instruction whose whole meaning is that write. -/
theorem completes_of_exec_writeResult {i : Instr} {s : State} {dr : RegIdx} {v : Word}
    (h : exec i s = .next (writeResult dr v s)) :
    ∃ t, exec i s = .next t ∧ GetsResult dr v s t ∧ t.pc = s.pc ∧ KeepsCellsBut [] s t ∧ KeepsConsole s t ∧
      KeepsRun s t :=
  ⟨writeResult dr v s, h, writeResult_getsResult dr v s, writeResult_frame dr v s⟩

/-! ### The meanings of the five rows (R90 to R94) -/

section
variable (dr sr1 sr2 : RegIdx) (x : BitVec 2) (imm5 : BitVec 5) (s : State)

theorem exec_add : exec (.add dr sr1 x sr2) s = .next (writeResult dr (s.reg sr1 + s.reg sr2) s) := rfl

theorem exec_addi : exec (.addi dr sr1 imm5) s = .next (writeResult dr (s.reg sr1 + sext imm5) s) := rfl

theorem exec_and : exec (.and dr sr1 x sr2) s = .next (writeResult dr (s.reg sr1 &&& s.reg sr2) s) := rfl

theorem exec_andi : exec (.andi dr sr1 imm5) s = .next (writeResult dr (s.reg sr1 &&& sext imm5) s) := rfl

end

theorem exec_not (dr sr : RegIdx) (x : BitVec 6) (s : State) :
    exec (.not dr sr x) s = .next (writeResult dr (~~~(s.reg sr)) s) := rfl

/-- Settles O24: the result is the sum of the two sources in the state before the write. -/
theorem addRegisterForm : Obligations.AddRegisterForm :=
  ⟨fun _ => decode_add, fun dr sr1 sr2 x s => completes_of_exec_writeResult (exec_add dr sr1 sr2 x s)⟩

/-- Settles O25: as O24, with the sign-extended immediate for the second source. -/
theorem addImmediateForm : Obligations.AddImmediateForm :=
  ⟨fun _ => decode_addi, fun dr sr1 imm5 s => completes_of_exec_writeResult (exec_addi dr sr1 imm5 s)⟩

/-- Settles O26: the result is the bitwise and of the two sources in the state before the write. -/
theorem andRegisterForm : Obligations.AndRegisterForm :=
  ⟨fun _ => decode_and, fun dr sr1 sr2 x s => completes_of_exec_writeResult (exec_and dr sr1 sr2 x s)⟩

/-- Settles O27: as O26, with the sign-extended immediate for the second source. -/
theorem andImmediateForm : Obligations.AndImmediateForm :=
  ⟨fun _ => decode_andi, fun dr sr1 imm5 s => completes_of_exec_writeResult (exec_andi dr sr1 imm5 s)⟩

/-- Settles O28: the result is the complement of the source in the state before the write. -/
theorem notComplements : Obligations.NotComplements :=
  ⟨fun _ => decode_not, fun dr sr x s => completes_of_exec_writeResult (exec_not dr sr x s)⟩

/-- Settles O29: the forms differ in the second source only, and there it is the same word. -/
theorem immediateAndRegisterFormsAgree : Obligations.ImmediateAndRegisterFormsAgree := by
  intro dr sr1 sr2 x imm5 s h
  constructor
  · rw [exec_add, exec_addi, h]
  · rw [exec_and, exec_andi, h]

end Sys2Proof.Machine
end

section
/-! PROOFS for the statements of 41_control: BR, JMP, RET, JSR and JSRR are read from their words, and each completes
with a write of PC, JSR and JSRR after the link in R7 (R100 to R105). -/

namespace Sys2Proof.Machine

/-! ### The words of the rows (R100, R102, R103) -/

section
variable {w : Word}

theorem decode_br (hop : w.extractLsb' 12 4 = 0b0000#4) :
    decode w = .br (w.getLsbD 11) (w.getLsbD 10) (w.getLsbD 9) (w.extractLsb' 0 9) := by
  simp only [decode, hop, BitVec.reduceToNat]

theorem decode_jsr (hop : w.extractLsb' 12 4 = 0b0100#4) (h11 : w.getLsbD 11 = true) :
    decode w = .jsr (w.extractLsb' 0 11) := by
  simp only [decode, hop, BitVec.reduceToNat, h11, if_true]

/-- RET's row is read where BaseR is 7 and bits 11:9 are zero. -/
theorem decode_jmp_or_ret (hop : w.extractLsb' 12 4 = 0b1100#4) :
    decode w = .jmp (w.extractLsb' 9 3) (regField w 6) (w.extractLsb' 0 6) ∨
      (w.extractLsb' 6 3 = 7#3 ∧ decode w = .ret (w.extractLsb' 0 6)) := by
  simp only [decode, hop, BitVec.reduceToNat]
  split
  case isTrue h => exact .inr ⟨congrArg regBits h.2, rfl⟩
  case isFalse => exact .inl rfl

end

/-! ### What a jump and a call leave (R26, R105) -/

section
variable (s : State) (a : Word)

/-- A jump writes PC alone. -/
theorem setPc_frame : KeepsRegsBut [] s (s.setPc a) ∧ (s.setPc a).cond = s.cond ∧ KeepsCellsBut [] s (s.setPc a) ∧
    KeepsConsole s (s.setPc a) ∧ KeepsRun s (s.setPc a) :=
  ⟨fun r _ => setPc_reg s a r, setPc_cond s a, fun b _ => setPc_store s a b, ⟨setPc_out s a, setPc_env s a⟩,
    setPc_run s a, setPc_stop s a, setPc_cfg s a⟩

/-- A call: R7 gets the incremented PC and PC the target. -/
def callTo : State := (linkR7 s).setPc a

theorem linkR7_reg_7 : (linkR7 s).reg 7 = s.pc := setReg_reg_same s 7 s.pc

theorem linkR7_reg_other {r : RegIdx} (h : r ≠ 7) : (linkR7 s).reg r = s.reg r := setReg_reg_other s s.pc h

theorem callTo_reg_7 : (callTo s a).reg 7 = s.pc := linkR7_reg_7 s

theorem callTo_pc : (callTo s a).pc = a := rfl

/-- A call writes R7 and PC alone. -/
theorem callTo_frame : KeepsRegsBut [7] s (callTo s a) ∧ (callTo s a).cond = s.cond ∧ KeepsCellsBut [] s (callTo s a) ∧
    KeepsConsole s (callTo s a) ∧ KeepsRun s (callTo s a) := by
  obtain ⟨-, hcond, hcells, hconsole, hrun⟩ := setPc_frame (linkR7 s) a
  exact ⟨fun r hr => linkR7_reg_other s (List.ne_of_not_mem_cons hr), hcond, hcells, hconsole, hrun⟩

end

/-! ### The meanings of the five rows -/

theorem brtest_iff (n z p : Bool) (c : Cond) :
    brtest n z p c = true ↔ (n = true ∧ c = .neg) ∨ (z = true ∧ c = .zro) ∨ (p = true ∧ c = .pos) := by
  simp only [brtest, Bool.or_eq_true, Bool.and_eq_true, decide_eq_true_eq, or_assoc]

section
variable (s : State)

/-- A BR that is not taken is a jump to the PC it has. -/
theorem exec_br (n z p : Bool) (off : BitVec 9) :
    exec (.br n z p off) s = .next (s.setPc (if brtest n z p s.cond then s.pc + sext off else s.pc)) := by
  refine congrArg Host.Outcome.next ?_
  split <;> rfl

theorem exec_jmp (hi : BitVec 3) (base : RegIdx) (lo : BitVec 6) :
    exec (.jmp hi base lo) s = .next (s.setPc (s.reg base)) := rfl

theorem exec_ret (x : BitVec 6) : exec (.ret x) s = .next (s.setPc (s.reg 7)) := rfl

theorem exec_jsr (off : BitVec 11) : exec (.jsr off) s = .next (callTo s (s.pc + sext off)) := rfl

/-- BaseR is read after the link is written (R104). -/
theorem exec_jsrr (hi : BitVec 2) (base : RegIdx) (lo : BitVec 6) :
    exec (.jsrr hi base lo) s = .next (callTo s ((linkR7 s).reg base)) := rfl

end

/-- Settles O30: BR is a jump whose target is chosen by `brtest`. -/
theorem branchFollowsCond : Obligations.BranchFollowsCond := by
  refine ⟨fun _ => decode_br, fun n z p off s => ⟨_, exec_br s n z p off, fun h => ?_, fun h => ?_, setPc_frame s _⟩⟩
  · rw [setPc_pc, if_pos ((brtest_iff n z p s.cond).2 h)]
  · rw [setPc_pc, if_neg (mt (brtest_iff n z p s.cond).1 h)]

/-- Settles O31: both rows jump to BaseR. -/
theorem jumpGoesToTheBaseRegister : Obligations.JumpGoesToTheBaseRegister := by
  refine ⟨fun _ => decode_jmp_or_ret, fun i base s hi => ?_⟩
  obtain ⟨hi, lo, rfl⟩ | ⟨rfl, x, rfl⟩ := hi
  · exact ⟨_, exec_jmp s hi base lo, setPc_pc s _, setPc_frame s _⟩
  · exact ⟨_, exec_ret s x, setPc_pc s _, setPc_frame s _⟩

/-- Settles O32: a call to the target relative to the incremented PC. -/
theorem jsrLinksAndJumps : Obligations.JsrLinksAndJumps :=
  ⟨fun _ => decode_jsr, fun off s =>
    ⟨_, exec_jsr s off, callTo_reg_7 s _, callTo_pc s _, callTo_frame s _⟩⟩

/-- Settles O33: a call to BaseR as the link leaves it: R7 then holds the incremented PC, every other register its value. -/
theorem jsrrLinksFirstThenJumps : Obligations.JsrrLinksFirstThenJumps := by
  refine ⟨fun _ => decode_jsrr, fun hi base lo s =>
    ⟨_, exec_jsrr s hi base lo, callTo_reg_7 s _, fun hb => ?_, fun hb => ?_, callTo_frame s _⟩⟩
  · rw [callTo_pc, linkR7_reg_other s hb]
  · rw [callTo_pc, hb, linkR7_reg_7]

end Sys2Proof.Machine
end

section
/-! PROOFS for the statements of 42_load_store: the loads, the stores and LEA are read from their words, and each
completes with its `MemRead`s in the order of its rule, then one write of a result or of a cell (R110 to R117). -/

namespace Sys2Proof.Machine

/-! ### The words of the rows (R110 to R116) -/

section
variable {w : Word}

theorem decode_ld (hop : w.extractLsb' 12 4 = 0b0010#4) : decode w = .ld (regField w 9) (w.extractLsb' 0 9) := by
  simp only [decode, hop, BitVec.reduceToNat]

theorem decode_ldi (hop : w.extractLsb' 12 4 = 0b1010#4) : decode w = .ldi (regField w 9) (w.extractLsb' 0 9) := by
  simp only [decode, hop, BitVec.reduceToNat]

theorem decode_ldr (hop : w.extractLsb' 12 4 = 0b0110#4) :
    decode w = .ldr (regField w 9) (regField w 6) (w.extractLsb' 0 6) := by
  simp only [decode, hop, BitVec.reduceToNat]

theorem decode_lea (hop : w.extractLsb' 12 4 = 0b1110#4) : decode w = .lea (regField w 9) (w.extractLsb' 0 9) := by
  simp only [decode, hop, BitVec.reduceToNat]

theorem decode_st (hop : w.extractLsb' 12 4 = 0b0011#4) : decode w = .st (regField w 9) (w.extractLsb' 0 9) := by
  simp only [decode, hop, BitVec.reduceToNat]

theorem decode_sti (hop : w.extractLsb' 12 4 = 0b1011#4) : decode w = .sti (regField w 9) (w.extractLsb' 0 9) := by
  simp only [decode, hop, BitVec.reduceToNat]

theorem decode_str (hop : w.extractLsb' 12 4 = 0b0111#4) :
    decode w = .str (regField w 9) (regField w 6) (w.extractLsb' 0 6) := by
  simp only [decode, hop, BitVec.reduceToNat]

end

/-! ### What reads leave (R43, R54) -/

/-- Memory and environment apart, nothing changed: so it is after any number of reads. -/
structure KeepsButMemoryAndEnv (s t : State) : Prop extends KeepsRegisters s t where
  out : t.out = s.out
  run : KeepsRun s t

theorem KeepsButMemoryAndEnv.refl (s : State) : KeepsButMemoryAndEnv s s := ⟨.refl s, rfl, rfl, rfl, rfl⟩

theorem KeepsButMemoryAndEnv.memRead {s u : State} (h : KeepsButMemoryAndEnv s u) (a : Word) :
    KeepsButMemoryAndEnv s (memRead a u).2 := by
  obtain ⟨hregs, hout, hrun, hstop, hcfg⟩ := h
  exact ⟨(keptByConsole_registers s).memRead a u hregs, (memRead_out a u).trans hout, (memRead_run a u).trans hrun,
    (memRead_stop a u).trans hstop, (memRead_cfg a u).trans hcfg⟩

/-- The state in which LDI and STI use the pointer they read. -/
theorem keepsButMemoryAndEnv_of_memRead {a v : Word} {s u : State} (h : memRead a s = (v, u)) :
    KeepsButMemoryAndEnv s u := by
  have hread := (KeepsButMemoryAndEnv.refl s).memRead a
  rwa [h] at hread

/-! ### A load and a store after reads

`s` is the state the instruction starts from, `u` the one its pointer read leaves; without a pointer they are the same
state. -/

section
variable {s u : State} (h : KeepsButMemoryAndEnv s u)
include h

theorem loadInto_completes (dr : RegIdx) (ea : Word) :
    GetsResult dr (memRead ea u).1 s (loadInto dr ea u) ∧ (loadInto dr ea u).pc = s.pc ∧
    (∀ a, (loadInto dr ea u).store a = (memRead ea u).2.store a) ∧ (loadInto dr ea u).out = s.out ∧
    (loadInto dr ea u).env = (memRead ea u).2.env ∧ KeepsRun s (loadInto dr ea u) := by
  have hread := h.memRead ea
  obtain ⟨hdr, hcond, hregs⟩ := writeResult_getsResult dr (memRead ea u).1 (memRead ea u).2
  exact ⟨⟨hdr, hcond, fun r hr => (hregs r hr).trans (hread.reg r)⟩, hread.pc, fun _ => rfl, hread.out, rfl, hread.run⟩

/-- The register stored is read after the pointer, which has not changed it. -/
theorem memWrite_reg_completes (sr : RegIdx) (ea : Word) :
    (memWrite ea (u.reg sr) u).store ea = s.reg sr ∧ KeepsCellsBut [ea] u (memWrite ea (u.reg sr) u) ∧
    KeepsRegsBut [] s (memWrite ea (u.reg sr) u) ∧ (memWrite ea (u.reg sr) u).pc = s.pc ∧
    (memWrite ea (u.reg sr) u).cond = s.cond ∧ (memWrite ea (u.reg sr) u).out = s.out ∧
    (memWrite ea (u.reg sr) u).env = u.env ∧ KeepsRun s (memWrite ea (u.reg sr) u) := by
  obtain ⟨hcell, hcells, -⟩ := memWriteStoresPlainly ea (u.reg sr) u
  exact ⟨hcell.trans (h.reg sr), hcells, fun r _ => h.reg r, h.pc, h.cond, h.out, rfl, h.run⟩

end

/-! ### The meanings of the seven rows (R110 to R116) -/

section
variable (dr sr base : RegIdx) (off : BitVec 9) (off6 : BitVec 6) (s : State)

theorem exec_ld : exec (.ld dr off) s = .next (loadInto dr (s.pc + sext off) s) := rfl

theorem exec_ldi {s1 : State} {ea : Word} (h : memRead (s.pc + sext off) s = (ea, s1)) :
    exec (.ldi dr off) s = .next (loadInto dr ea s1) :=
  congrArg (fun ptr : Word × State => Host.Outcome.next (loadInto dr ptr.1 ptr.2)) h

theorem exec_ldr : exec (.ldr dr base off6) s = .next (loadInto dr (s.reg base + sext off6) s) := rfl

theorem exec_lea : exec (.lea dr off) s = .next (writeResult dr (s.pc + sext off) s) := rfl

theorem exec_st : exec (.st sr off) s = .next (memWrite (s.pc + sext off) (s.reg sr) s) := rfl

theorem exec_sti {s1 : State} {ea : Word} (h : memRead (s.pc + sext off) s = (ea, s1)) :
    exec (.sti sr off) s = .next (memWrite ea (s1.reg sr) s1) :=
  congrArg (fun ptr : Word × State => Host.Outcome.next (memWrite ptr.1 (ptr.2.reg sr) ptr.2)) h

theorem exec_str : exec (.str sr base off6) s = .next (memWrite (s.reg base + sext off6) (s.reg sr) s) := rfl

end

/-- Settles O35: a load from the address the pointer read answers, in the state it leaves. -/
theorem ldiLoadsThroughThePointer : Obligations.LdiLoadsThroughThePointer :=
  ⟨fun _ => decode_ldi, fun dr off s _ ea hptr =>
    ⟨_, exec_ldi dr off s hptr, loadInto_completes (keepsButMemoryAndEnv_of_memRead hptr) dr ea⟩⟩

/-- Settles O39: a store to the address the pointer read answers, in the state it leaves. -/
theorem stiStoresThroughThePointer : Obligations.StiStoresThroughThePointer :=
  ⟨fun _ => decode_sti, fun sr off s _ ea hptr =>
    ⟨_, exec_sti sr off s hptr, memWrite_reg_completes (keepsButMemoryAndEnv_of_memRead hptr) sr ea⟩⟩

/-- Settles O34: a load with no pointer read before it. -/
theorem ldLoadsPcRelative : Obligations.LdLoadsPcRelative :=
  ⟨fun _ => decode_ld, fun dr off s => ⟨_, exec_ld dr off s, loadInto_completes (.refl s) dr _⟩⟩

/-- Settles O36: as O34; the address is an argument of the load, so BaseR was read before DR is written. -/
theorem ldrLoadsBasePlusOffset : Obligations.LdrLoadsBasePlusOffset :=
  ⟨fun _ => decode_ldr, fun dr base off s => ⟨_, exec_ldr dr base off s, loadInto_completes (.refl s) dr _⟩⟩

/-- Settles O37: the whole meaning is one write of a flag-setting result, as in the ALU rows. -/
theorem leaComputesTheAddress : Obligations.LeaComputesTheAddress :=
  ⟨fun _ => decode_lea, fun dr off s => completes_of_exec_writeResult (exec_lea dr off s)⟩

/-- Settles O38: the whole meaning is one plain write (R46). -/
theorem stStoresPcRelative : Obligations.StStoresPcRelative :=
  ⟨fun _ => decode_st, fun sr off s => ⟨_, exec_st sr off s, memWriteStoresPlainly _ _ s⟩⟩

/-- Settles O40: as O38, at the base register's address. -/
theorem strStoresBasePlusOffset : Obligations.StrStoresBasePlusOffset :=
  ⟨fun _ => decode_str, fun sr base off s => ⟨_, exec_str sr base off s, memWriteStoresPlainly _ _ s⟩⟩

end Sys2Proof.Machine
end

section
/-! PROOFS for the statements of 43_trap: the vector of a TRAP word (R130), what each routine does (R133 to R138), the
string loops of R135 and R137 as the walks that `exec` follows, and what a failing console call leaves (R132). -/

namespace Sys2Proof.Machine

/-! ### The vector of a TRAP word (R130, R72) -/

/-- Among the instructions the decoder answers, a TRAP is illegal by its vector alone. -/
theorem illegal_eq_of_vector {i : Instr} {v : Byte} (hv : i.vector = some v) (hw : i.wf = true) :
    i.illegal = !recognisedVector v := by
  cases i with
  | trap x u => cases hv; rfl
  | getc | out | puts | inp | putsp | halt => cases hv; rfl
  | trapIllegal u => cases hv; exact hw.symm
  | _ => cases hv

/-- Settles O41: each row of TRAP that the decoder takes holds the low byte as its vector. -/
theorem trapWordsGiveTheirVector : Obligations.TrapWordsGiveTheirVector := by
  intro w hop
  have hv : (decode w).vector = some (lowByte w) := decode_trap hop ▸ decodeTrap_vector w
  refine ⟨hv, ?_⟩
  rw [illegal_eq_of_vector hv (decode_wf w), Bool.not_eq_true', ← Bool.not_eq_true, recognisedVector_iff]
  rfl

/-- The vector of a routine's row and of the general row with the same vector. -/
theorem vector_of_forms {i row : Instr} {v : Byte} (hi : i = row ∨ ∃ x, i = .trap x v) (hr : row.vector = some v) :
    i.vector = some v := by
  obtain rfl | ⟨x, rfl⟩ := hi
  · exact hr
  · rfl

/-! ### What console calls and reads leave (R132, R171 to R173) -/

/-- Registers, PC, COND, the run and the parameters are unchanged: so it is after any console calls and reads. -/
structure KeepsCore (s u : State) : Prop extends KeepsRegisters s u where
  run : KeepsRun s u

theorem KeepsCore.refl (s : State) : KeepsCore s s := ⟨.refl s, rfl, rfl, rfl⟩

section
variable {s u : State} (h : KeepsCore s u)
include h

theorem KeepsCore.stop : u.stop = s.stop := h.run.2.1

theorem KeepsCore.memRead (a : Word) : KeepsCore s (memRead a u).2 := by
  obtain ⟨hregs, hrun, hstop, hcfg⟩ := h
  exact ⟨(keptByConsole_registers s).memRead a u hregs, (memRead_run a u).trans hrun, (memRead_stop a u).trans hstop,
    (memRead_cfg a u).trans hcfg⟩

theorem KeepsCore.conOut (b : Byte) : KeepsCore s (conOut b u).2 := by
  obtain ⟨hregs, hrun, hstop, hcfg⟩ := h
  exact ⟨(keptByConsole_registers s).conOut b u hregs, (conOut_run b u).trans hrun, (conOut_stop b u).trans hstop,
    (conOut_cfg b u).trans hcfg⟩

theorem KeepsCore.kbdGet : KeepsCore s (kbdGet u).2 := by
  obtain ⟨hregs, hrun, hstop, hcfg⟩ := h
  exact ⟨(keptByConsole_registers s).kbdGet u hregs, (kbdGet_run u).trans hrun, (kbdGet_stop u).trans hstop,
    (kbdGet_cfg u).trans hcfg⟩

theorem KeepsCore.conOutAll (bs : List Byte) : KeepsCore s (conOutAll bs u).2 :=
  conOutAll_keeps (fun b _ hu => hu.conOut b) bs h

/-- R132: an IOError stop in a state that console calls and reads have left. -/
theorem KeepsCore.stopsFatally {i : Instr} {v : Byte} (hv : i.vector = some v) :
    StopsFatally .ioError (ioErrorInfo i s) s (raiseIOError (encode i) u) := by
  rw [raiseIOError_encode hv h.pc]
  exact ⟨rfl, rfl, fun r _ => h.reg r, h.cond, h.pc, h.run.2.2⟩

end

/-- The state with another output log and environment: so console calls leave it. -/
def State.withConsole (s : State) (out : List Byte) (env : Env) : State := { s with out := out, env := env }

section
variable (s : State) (out : List Byte) (env : Env)

theorem withConsole_keepsCore : KeepsCore s (s.withConsole out env) := ⟨⟨rfl, rfl, rfl⟩, rfl, rfl, rfl⟩

/-- What a routine that only writes has changed at its end. -/
theorem withConsole_frame : (s.withConsole out env).out = out ∧ KeepsRegsBut [] s (s.withConsole out env) ∧
    (s.withConsole out env).cond = s.cond ∧ (s.withConsole out env).pc = s.pc ∧
    KeepsCellsBut [] s (s.withConsole out env) ∧ KeepsRun s (s.withConsole out env) ∧
    (s.withConsole out env).env = env :=
  ⟨rfl, fun _ _ => rfl, rfl, rfl, fun _ _ => rfl, ⟨rfl, rfl, rfl⟩, rfl⟩

/-- What a routine that stops at a failing console call has changed (R132, D13). -/
theorem withConsole_ioError {i : Instr} {v : Byte} (hv : i.vector = some v) :
    StopsFatally .ioError (ioErrorInfo i s) s (raiseIOError (encode i) (s.withConsole out env)) ∧
    KeepsCellsBut [] s (raiseIOError (encode i) (s.withConsole out env)) ∧
    (raiseIOError (encode i) (s.withConsole out env)).out = out :=
  ⟨(withConsole_keepsCore s out env).stopsFatally hv, fun _ _ => rfl, rfl⟩

end

/-! ### GETC and OUT (R133, R134) -/

section
variable {instr : Word} {s u : State}

theorem routineGetc_of_byte {b : Byte} (h : kbdGet s = (.byte b, u)) :
    routineGetc instr s = .next (writeResult 0 (zext16 b) u) := by
  simp only [routineGetc, h]

theorem routineGetc_of_failed (h : kbdGet s = (.failed, u)) : routineGetc instr s = .next (raiseIOError instr u) := by
  simp only [routineGetc, h]

theorem routineGetc_of_neverAnswered (h : kbdGet s = (.neverAnswered, u)) :
    routineGetc instr s = .fault .inputNeverArrives := by
  simp only [routineGetc, h]

theorem routineOut_of_accepted (h : conOut (lowByte (s.reg 0)) s = (true, u)) : routineOut instr s = .next u := by
  simp only [routineOut, orIOError, h, if_true]

theorem routineOut_of_failed (h : conOut (lowByte (s.reg 0)) s = (false, u)) :
    routineOut instr s = .next (raiseIOError instr u) := by
  simp only [routineOut, orIOError, h, Bool.false_eq_true, if_false]

end

/-- A zero-extended byte has bit 15 clear (R24). -/
theorem flagOf_zext16_ne_neg (b : Byte) : flagOf (zext16 b) ≠ .neg := by
  have h15 : (zext16 b).getLsbD 15 = false := by simp [zext16]
  rw [flagOf, h15]
  split <;> decide

/-- Settles O42: by what the blocking read answers; each answer changes the environment only. -/
theorem getcReadsOneByte : Obligations.GetcReadsOneByte := by
  intro i s hi
  have hv := vector_of_forms hi rfl
  simp only [exec_getc_forms hi]
  refine ⟨fun b hf hb => ?_, fun hf => ?_, fun hf hin htail => ?_⟩
  · exact ⟨_, routineGetc_of_byte (kbdGet_byte hf hb), writeResult_getsResult 0 (zext16 b) (s.withConsole s.out _),
      flagOf_zext16_ne_neg b, rfl, fun _ _ => rfl, rfl, ⟨rfl, rfl, rfl⟩, rfl⟩
  · exact ⟨_, routineGetc_of_failed (kbdGet_failed hf), withConsole_ioError s s.out _ hv⟩
  · exact routineGetc_of_neverAnswered (kbdGet_neverAnswered hf hin htail)

/-- Settles O43: by whether the one write is accepted. -/
theorem outWritesTheLowByte : Obligations.OutWritesTheLowByte := by
  intro i s hi
  have hv := vector_of_forms hi rfl
  simp only [exec_out_forms hi]
  refine ⟨fun ha => ?_, fun ha => ?_⟩
  · exact ⟨_, routineOut_of_accepted (conOut_accepted _ s ha), withConsole_frame s _ _⟩
  · exact ⟨_, routineOut_of_failed (conOut_failed _ s ha), withConsole_ioError s s.out _ hv⟩

/-! ### IN and HALT (R136, R138) -/

section
variable {instr : Word} {s s1 s2 s3 : State}

theorem routineIn_of_promptFailed (hp : conOutAll s.cfg.inPrompt s = (false, s1)) :
    routineIn instr s = .next (raiseIOError instr s1) := by
  simp only [routineIn, hp]

theorem routineIn_of_readFailed (hp : conOutAll s.cfg.inPrompt s = (true, s1)) (hg : kbdGet s1 = (.failed, s2)) :
    routineIn instr s = .next (raiseIOError instr s2) := by
  simp only [routineIn, hp, hg]

theorem routineIn_of_neverAnswered (hp : conOutAll s.cfg.inPrompt s = (true, s1))
    (hg : kbdGet s1 = (.neverAnswered, s2)) : routineIn instr s = .fault .inputNeverArrives := by
  simp only [routineIn, hp, hg]

theorem routineIn_of_echoFailed {b : Byte} (hp : conOutAll s.cfg.inPrompt s = (true, s1))
    (hg : kbdGet s1 = (.byte b, s2)) (he : conOut b s2 = (false, s3)) :
    routineIn instr s = .next (raiseIOError instr s3) := by
  simp only [routineIn, hp, hg, he]

theorem routineIn_of_echoAccepted {b : Byte} (hp : conOutAll s.cfg.inPrompt s = (true, s1))
    (hg : kbdGet s1 = (.byte b, s2)) (he : conOut b s2 = (true, s3)) :
    routineIn instr s = .next (writeResult 0 (zext16 b) s3) := by
  simp only [routineIn, hp, hg, he]

theorem routineHalt_of_accepted (hn : conOutAll s.cfg.haltNotice s = (true, s1)) :
    routineHalt instr s = .next (haltNormally s1) := by
  simp only [routineHalt, hn]

theorem routineHalt_of_failed (hn : conOutAll s.cfg.haltNotice s = (false, s1)) :
    routineHalt instr s = .next (raiseIOError instr s1) := by
  simp only [routineHalt, hn]

end

/-- The write after `n` accepted ones. -/
theorem acceptsWrites_succ_last {n : Nat} {e : Env} :
    AcceptsWrites (n + 1) e ↔ AcceptsWrites n e ∧ (e.afterWrites n).writeFails.answer = false :=
  Nat.forall_lt_succ_right

/-- Settles O46: the calls of the routine in their order, prompt, read and echo, by what each of them answers. -/
theorem inPromptsReadsAndEchoes : Obligations.InPromptsReadsAndEchoes := by
  intro i s hi
  have hv := vector_of_forms hi rfl
  simp only [exec_in_forms hi]
  refine ⟨fun b ha hf hb => ?_, fun k hk ha hn => ?_, fun ha hf => ?_, fun b ha hn hf hb => ?_,
    fun ha hf hin htail => ?_⟩
  · obtain ⟨ha, hecho⟩ := acceptsWrites_succ_last.1 ha
    have hp := conOutAll_accepted s.cfg.inPrompt ha
    exact ⟨_, routineIn_of_echoAccepted hp (kbdGet_byte hf hb) (conOut_accepted b _ hecho),
      writeResult_getsResult 0 (zext16 b) (s.withConsole _ _), rfl, fun _ _ => rfl, ⟨rfl, rfl, rfl⟩, rfl, rfl⟩
  · obtain ⟨hstop, hcells, hout⟩ := withConsole_ioError s (s.out ++ s.cfg.inPrompt.take k) (s.env.afterWrites (k + 1)) hv
    exact ⟨_, routineIn_of_promptFailed (conOutAll_failed s.cfg.inPrompt hk ha hn), hstop, hcells, hout, rfl⟩
  · exact ⟨_, routineIn_of_readFailed (conOutAll_accepted s.cfg.inPrompt ha) (kbdGet_failed hf),
      withConsole_ioError s _ _ hv⟩
  · have hecho : (s.env.afterWrites s.cfg.inPrompt.length).writeFails.answer = true :=
      Bool.of_not_eq_false fun h => hn (acceptsWrites_succ_last.2 ⟨ha, h⟩)
    have hp := conOutAll_accepted s.cfg.inPrompt ha
    exact ⟨_, routineIn_of_echoFailed hp (kbdGet_byte hf hb) (conOut_failed b _ hecho), withConsole_ioError s _ _ hv⟩
  · exact routineIn_of_neverAnswered (conOutAll_accepted s.cfg.inPrompt ha) (kbdGet_neverAnswered hf hin htail)

/-- Settles O49: by whether the notice is accepted. -/
theorem haltStopsNormally : Obligations.HaltStopsNormally := by
  intro i s hi
  have hv := vector_of_forms hi rfl
  simp only [exec_halt_forms hi]
  refine ⟨fun ha => ?_, fun k hk ha hn => ?_⟩
  · exact ⟨_, routineHalt_of_accepted (conOutAll_accepted s.cfg.haltNotice ha), rfl, rfl, rfl, rfl, fun _ _ => rfl, rfl,
      rfl, fun _ _ => rfl, rfl, rfl⟩
  · exact ⟨_, routineHalt_of_failed (conOutAll_failed s.cfg.haltNotice hk ha hn), withConsole_ioError s _ _ hv⟩

end Sys2Proof.Machine
end

section
/-! PROOFS for the string routines of 43_trap: the loops of R135 and R137 are the walks that PUTS and PUTSP follow, a
walk that meets no poll and no failing write writes the string, and a PUTSP always ends. -/

namespace Sys2Proof.Machine

/-! ### One word of a walk (R135, R137) -/

section
variable {ends : Word → Bool} {bytes : Word → List Byte} {n : Nat} {a : Word} {s s' : State}

theorem stringWalk_of_ends (he : ends (memRead a s).1 = true) :
    stringWalk ends bytes (n + 1) a s = .finished (memRead a s).2 := by
  rw [stringWalk, if_pos he]

theorem stringWalk_of_accepted (he : ends (memRead a s).1 = false)
    (hw : conOutAll (bytes (memRead a s).1) (memRead a s).2 = (true, s')) :
    stringWalk ends bytes (n + 1) a s = stringWalk ends bytes n (a + 1) s' := by
  simp only [stringWalk, he, hw, Bool.false_eq_true, if_false]

theorem stringWalk_of_failed (he : ends (memRead a s).1 = false)
    (hw : conOutAll (bytes (memRead a s).1) (memRead a s).2 = (false, s')) :
    stringWalk ends bytes (n + 1) a s = .failed s' := by
  simp only [stringWalk, he, hw, Bool.false_eq_true, if_false]

/-- What a walk does at its first word. -/
theorem stringWalk_cases (ends : Word → Bool) (bytes : Word → List Byte) (n : Nat) (a : Word) (s : State) :
    (ends (memRead a s).1 = true ∧ stringWalk ends bytes (n + 1) a s = .finished (memRead a s).2) ∨
    (ends (memRead a s).1 = false ∧ ∃ s', conOutAll (bytes (memRead a s).1) (memRead a s).2 = (true, s') ∧
      stringWalk ends bytes (n + 1) a s = stringWalk ends bytes n (a + 1) s') ∨
    (ends (memRead a s).1 = false ∧ ∃ s', conOutAll (bytes (memRead a s).1) (memRead a s).2 = (false, s') ∧
      stringWalk ends bytes (n + 1) a s = .failed s') := by
  cases he : ends (memRead a s).1 with
  | true => exact .inl ⟨rfl, stringWalk_of_ends he⟩
  | false =>
    rcases hw : conOutAll (bytes (memRead a s).1) (memRead a s).2 with ⟨_ | _, s'⟩
    · exact .inr (.inr ⟨rfl, s', rfl, stringWalk_of_failed he hw⟩)
    · exact .inr (.inl ⟨rfl, s', rfl, stringWalk_of_accepted he hw⟩)

end

/-- How a walk has ended, in the form of the loops: true at a terminator, false by a failing write. -/
def Walk.EndsAs (w : Walk) (r : Bool) (t : State) : Prop := w = if r then .finished t else .failed t

section
variable {r : Bool} {s t u : State} {w : Walk}

theorem endsAs_true : w.EndsAs true t ↔ w = .finished t := Iff.rfl

theorem endsAs_false : w.EndsAs false t ↔ w = .failed t := Iff.rfl

theorem finished_endsAs (h : (Walk.finished u).EndsAs r t) : r = true ∧ u = t := by
  cases r with
  | true => exact ⟨rfl, Walk.finished.inj h⟩
  | false => cases h

theorem failed_endsAs (h : (Walk.failed u).EndsAs r t) : r = false ∧ u = t := by
  cases r with
  | true => cases h
  | false => exact ⟨rfl, Walk.failed.inj h⟩

theorem not_unfinished_endsAs : ¬Walk.unfinished.EndsAs r t := by
  intro h
  cases r <;> cases h

theorem exists_endsAs (h : w ≠ .unfinished) : ∃ r t, w.EndsAs r t := by
  cases w with
  | finished t => exact ⟨true, t, rfl⟩
  | failed t => exact ⟨false, t, rfl⟩
  | unfinished => exact absurd rfl h

end

section
variable {ends : Word → Bool} {bytes : Word → List Byte} {r : Bool} {a : Word} {s t : State}

/-- A walk reads and writes, and so leaves the core as it was. -/
theorem stringWalk_keepsCore {n : Nat} {s₀ : State} (hs : KeepsCore s₀ s)
    (h : (stringWalk ends bytes n a s).EndsAs r t) : KeepsCore s₀ t := by
  induction n generalizing a s with
  | zero => exact absurd h not_unfinished_endsAs
  | succ n ih =>
    have hwrite := (hs.memRead a).conOutAll (bytes (memRead a s).1)
    rcases stringWalk_cases ends bytes n a s with ⟨-, hw⟩ | ⟨-, s', ho, hw⟩ | ⟨-, s', ho, hw⟩ <;> rw [hw] at h
    · obtain ⟨-, rfl⟩ := finished_endsAs h
      exact hs.memRead a
    · rw [ho] at hwrite
      exact ih hwrite h
    · rw [ho] at hwrite
      obtain ⟨-, rfl⟩ := failed_endsAs h
      exact hwrite

end

/-! ### The loops are the walks -/

section
variable {r : Bool} {a w : Word} {s s' t : State}

theorem putsEnds_iff : putsEnds w = true ↔ w = 0x0000 := beq_iff_eq

theorem putsEnds_eq_false_iff : putsEnds w = false ↔ w ≠ 0x0000 := beq_eq_false_iff_ne

theorem putspEnds_iff : putspEnds w = true ↔ lowByte w = 0x00 := beq_iff_eq

theorem putspEnds_eq_false_iff : putspEnds w = false ↔ lowByte w ≠ 0x00 := beq_eq_false_iff_ne

theorem putspBytes_of_high_zero (h : highByte w = 0x00) : putspBytes w = [lowByte w] := if_pos h

theorem putspBytes_of_high_ne_zero (h : highByte w ≠ 0x00) : putspBytes w = [lowByte w, highByte w] := if_neg h

/-- PUTSP writes the low byte of a word first. -/
theorem putspBytes_eq_cons (w : Word) : ∃ bs, putspBytes w = lowByte w :: bs := by
  by_cases h : highByte w = 0x00
  · exact ⟨_, putspBytes_of_high_zero h⟩
  · exact ⟨_, putspBytes_of_high_ne_zero h⟩

theorem conOutAll_cons_of_accepted {b : Byte} (bs : List Byte) (h : conOut b s = (true, s')) :
    conOutAll (b :: bs) s = conOutAll bs s' := by
  simp only [conOutAll, h]

theorem conOutAll_cons_of_failed {b : Byte} (bs : List Byte) (h : conOut b s = (false, s')) :
    conOutAll (b :: bs) s = (false, s') := by
  simp only [conOutAll, h]

theorem conOutAll_singleton (b : Byte) (s : State) : conOutAll [b] s = conOut b s := by
  rcases h : conOut b s with ⟨_ | _, s'⟩
  · exact conOutAll_cons_of_failed [] h
  · exact conOutAll_cons_of_accepted [] h

/-- A walk of PUTS that ends is a loop of R135 that ends, at the same state (the converse of `putsLoop_walk`). -/
theorem putsLoop_of_walk {n : Nat} (h : (stringWalk putsEnds putsBytes n a s).EndsAs r t) : PutsLoop a s r t := by
  induction n generalizing a s with
  | zero => exact absurd h not_unfinished_endsAs
  | succ n ih =>
    rcases stringWalk_cases putsEnds putsBytes n a s with ⟨he, hw⟩ | ⟨he, s', ho, hw⟩ | ⟨he, s', ho, hw⟩ <;> rw [hw] at h
    · obtain ⟨rfl, rfl⟩ := finished_endsAs h
      exact .terminator (putsEnds_iff.1 he)
    · rw [putsBytes, conOutAll_singleton] at ho
      exact .goesOn (putsEnds_eq_false_iff.1 he) ho (ih h)
    · rw [putsBytes, conOutAll_singleton] at ho
      obtain ⟨rfl, rfl⟩ := failed_endsAs h
      exact .writeFails (putsEnds_eq_false_iff.1 he) ho

/-- The loop of R137 stops where a write of a word fails, be it of the low or of the high byte. -/
theorem PutspLoop.of_failed (hz : lowByte (memRead a s).1 ≠ 0x00)
    (hw : conOutAll (putspBytes (memRead a s).1) (memRead a s).2 = (false, t)) : PutspLoop a s false t := by
  by_cases hh : highByte (memRead a s).1 = 0x00
  · rw [putspBytes_of_high_zero hh, conOutAll_singleton] at hw
    exact .lowFails hz hw
  · rw [putspBytes_of_high_ne_zero hh] at hw
    rcases hl : conOut (lowByte (memRead a s).1) (memRead a s).2 with ⟨_ | _, s'⟩
    · rw [conOutAll_cons_of_failed _ hl] at hw
      exact .lowFails hz (hl.trans hw)
    · rw [conOutAll_cons_of_accepted _ hl, conOutAll_singleton] at hw
      exact .highFails hz hl hh hw

/-- The loop of R137 goes on where the writes of a word are accepted. -/
theorem PutspLoop.of_accepted (hz : lowByte (memRead a s).1 ≠ 0x00)
    (hw : conOutAll (putspBytes (memRead a s).1) (memRead a s).2 = (true, s')) (rest : PutspLoop (a + 1) s' r t) :
    PutspLoop a s r t := by
  by_cases hh : highByte (memRead a s).1 = 0x00
  · rw [putspBytes_of_high_zero hh, conOutAll_singleton] at hw
    exact .oneByte hz hw hh rest
  · rw [putspBytes_of_high_ne_zero hh] at hw
    rcases hl : conOut (lowByte (memRead a s).1) (memRead a s).2 with ⟨_ | _, s''⟩
    · rw [conOutAll_cons_of_failed _ hl] at hw
      cases hw
    · rw [conOutAll_cons_of_accepted _ hl, conOutAll_singleton] at hw
      exact .twoBytes hz hl hh hw rest

/-- A loop of R137 that ends is a walk that ends, at the same state. -/
theorem putspLoop_walk (h : PutspLoop a s r t) : ∃ n, (stringWalk putspEnds putspBytes n a s).EndsAs r t := by
  induction h with
  | terminator hz => exact ⟨1, stringWalk_of_ends (putspEnds_iff.2 hz)⟩
  | lowFails hz hw =>
    obtain ⟨bs, hbs⟩ := putspBytes_eq_cons _
    exact ⟨1, stringWalk_of_failed (putspEnds_eq_false_iff.2 hz) (hbs ▸ conOutAll_cons_of_failed bs hw)⟩
  | highFails hz hw hh hv =>
    refine ⟨1, stringWalk_of_failed (putspEnds_eq_false_iff.2 hz) ?_⟩
    rw [putspBytes_of_high_ne_zero hh, conOutAll_cons_of_accepted _ hw, conOutAll_singleton, hv]
  | oneByte hz hw hh _ ih =>
    obtain ⟨n, hn⟩ := ih
    refine ⟨n + 1, ?_⟩
    rwa [stringWalk_of_accepted (putspEnds_eq_false_iff.2 hz)
      (by rw [putspBytes_of_high_zero hh, conOutAll_singleton, hw])]
  | twoBytes hz hw hh hv _ ih =>
    obtain ⟨n, hn⟩ := ih
    refine ⟨n + 1, ?_⟩
    rwa [stringWalk_of_accepted (putspEnds_eq_false_iff.2 hz)
      (by rw [putspBytes_of_high_ne_zero hh, conOutAll_cons_of_accepted _ hw, conOutAll_singleton, hv])]

theorem putspLoop_of_walk {n : Nat} (h : (stringWalk putspEnds putspBytes n a s).EndsAs r t) : PutspLoop a s r t := by
  induction n generalizing a s with
  | zero => exact absurd h not_unfinished_endsAs
  | succ n ih =>
    rcases stringWalk_cases putspEnds putspBytes n a s with ⟨he, hw⟩ | ⟨he, s', ho, hw⟩ | ⟨he, s', ho, hw⟩ <;>
      rw [hw] at h
    · obtain ⟨rfl, rfl⟩ := finished_endsAs h
      exact .terminator (putspEnds_iff.1 he)
    · exact .of_accepted (putspEnds_eq_false_iff.1 he) ho (ih h)
    · obtain ⟨rfl, rfl⟩ := failed_endsAs h
      exact .of_failed (putspEnds_eq_false_iff.1 he) ho

end

/-! ### The end of a string routine (R132, I9) -/

section
variable {ends : Word → Bool} {bytes : Word → List Byte} {n : Nat} {a : Word} {i : Instr} {v : Byte} {r : Bool}
  {s t : State}

theorem exists_endOfWalk_eq_next {instr : Word} {w : Walk} (h : w ≠ .unfinished) : ∃ t, endOfWalk instr w = .next t := by
  obtain ⟨r, t, hw⟩ := exists_endsAs h
  cases r with
  | true => exact ⟨t, congrArg (endOfWalk instr) (endsAs_true.1 hw)⟩
  | false => exact ⟨raiseIOError instr t, congrArg (endOfWalk instr) (endsAs_false.1 hw)⟩

/-- The walk that a routine follows ends as any walk of the same string that ends. -/
theorem stringWalk_endsAs (he : ends 0x0000 = true) (hb : ∀ w, bytes w ≠ [])
    (h : (stringWalk ends bytes n a s).EndsAs r t) : (stringWalk ends bytes (walkBound s) a s).EndsAs r t := by
  have hne : stringWalk ends bytes n a s ≠ .unfinished := fun hu => not_unfinished_endsAs (hu ▸ h)
  exact stringWalk_ends he hb rfl hne ▸ h

theorem endOfWalk_of_terminator {instr : Word} (he : ends 0x0000 = true) (hb : ∀ w, bytes w ≠ [])
    (h : (stringWalk ends bytes n a s).EndsAs true t) :
    endOfWalk instr (stringWalk ends bytes (walkBound s) a s) = .next t :=
  congrArg (endOfWalk instr) (endsAs_true.1 (stringWalk_endsAs he hb h))

theorem endOfWalk_of_failing_write (hv : i.vector = some v) (he : ends 0x0000 = true) (hb : ∀ w, bytes w ≠ [])
    (h : (stringWalk ends bytes n a s).EndsAs false t) :
    endOfWalk (encode i) (stringWalk ends bytes (walkBound s) a s) =
      .next (raiseFatal .ioError (ioErrorInfo i s) t) := by
  rw [← raiseIOError_encode hv (stringWalk_keepsCore (.refl s) h).pc]
  exact congrArg (endOfWalk (encode i)) (endsAs_false.1 (stringWalk_endsAs he hb h))

end

/-- Settles O45: the loop ends exactly as the walk of PUTS does, within `walkBound` words where it ends at all. -/
theorem putsFollowsItsLoop : Obligations.PutsFollowsItsLoop := by
  intro i s hi
  rw [exec_puts_forms hi, routinePuts]
  refine ⟨fun t h => ?_, fun t h => ?_, fun h => ?_⟩
  · obtain ⟨n, hn⟩ := putsLoop_walk h
    exact endOfWalk_of_terminator putsEnds_zero putsBytes_ne hn
  · obtain ⟨n, hn⟩ := putsLoop_walk h
    exact endOfWalk_of_failing_write (vector_of_forms hi rfl) putsEnds_zero putsBytes_ne hn
  · have hu : stringWalk putsEnds putsBytes (walkBound s) (s.reg 0) s = .unfinished := by
      by_contra hne
      obtain ⟨r, t, hw⟩ := exists_endsAs hne
      exact h ⟨r, t, putsLoop_of_walk hw⟩
    rw [hu, endOfWalk]

/-- A read of KBSR answers a word whose low byte is zero, ready or not (R43, R44). -/
theorem putspEnds_memRead_kbsr {s : State} (hw : s.cfg.wf) : putspEnds (memRead s.cfg.kbsrAddr s).1 = true := by
  rw [memRead_kbsr]
  cases hp : (kbdPoll s).1 with
  | some b =>
    have hready : putspEnds kbsrReady = true := by decide
    rwa [← pollKeyboard_kbsr_of_byte hw hp] at hready
  | none =>
    have hzero := putspEnds_zero
    rwa [← pollKeyboard_kbsr_of_none hp] at hzero

theorem walkState_cfg (bytes : Word → List Byte) (a : Word) (s : State) (k : Nat) :
    (walkState bytes a s k).cfg = s.cfg := by
  induction k with
  | zero => rfl
  | succ k ih => rw [walkState, conOutAll_cfg, memRead_cfg, ih]

/-- A walk of PUTSP ends: within one lap it reads KBSR_ADDR. -/
theorem putsp_walk_ends {s : State} (hw : s.cfg.wf) (a : Word) :
    stringWalk putspEnds putspBytes (walkBound s) a s ≠ .unfinished := by
  intro hu
  obtain ⟨k, hk, ha⟩ := lap_reads_kbsr a s.cfg.kbsrAddr 0
  rw [Nat.zero_add] at ha
  have hbound : k < walkBound s := by unfold walkBound; omega
  obtain ⟨hends, -⟩ := (stringWalk_unfinished_iff _ _ _ _ _).1 hu k hbound
  have hcfg := walkState_cfg putspBytes a s k
  rw [ha, ← hcfg, putspEnds_memRead_kbsr (hcfg ▸ hw)] at hends
  cases hends

/-- Settles O48: the loop ends exactly as the walk of PUTSP does, and the walk ends. -/
theorem putspFollowsItsLoop : Obligations.PutspFollowsItsLoop := by
  intro i s hi hw
  have hends := putsp_walk_ends hw (s.reg 0)
  rw [exec_putsp_forms hi, routinePutsp]
  refine ⟨?_, exists_endOfWalk_eq_next hends, fun t h => ?_, fun t h => ?_⟩
  · obtain ⟨r, t, h⟩ := exists_endsAs hends
    exact ⟨r, t, putspLoop_of_walk h⟩
  · obtain ⟨n, hn⟩ := putspLoop_walk h
    exact endOfWalk_of_terminator putspEnds_zero putspBytes_ne hn
  · obtain ⟨n, hn⟩ := putspLoop_walk h
    exact endOfWalk_of_failing_write (vector_of_forms hi rfl) putspEnds_zero putspBytes_ne hn

/-! ### A walk without polls and failing writes (R135, R137) -/

theorem afterWrites_add (m n : Nat) (e : Env) : e.afterWrites (m + n) = (e.afterWrites m).afterWrites n := by
  simp only [Env.afterWrites, Nat.add_comm m n, Function.iterate_add_apply]

theorem acceptsWrites_add {m n : Nat} {e : Env} (h : AcceptsWrites (m + n) e) :
    AcceptsWrites m e ∧ AcceptsWrites n (e.afterWrites m) := by
  refine ⟨fun k hk => h k (by omega), fun k hk => ?_⟩
  have hkm := h (k + m) (by omega)
  rwa [Function.iterate_add_apply] at hkm

section
variable (bytes : Word → List Byte) (s : State)

/-- The bytes that a walk writes for the first `n` words from an address, as the cells hold them. -/
def stringBytes (n : Nat) (a : Word) : List Byte :=
  (List.range n).flatMap fun k => bytes (s.store (a + BitVec.ofNat 16 k))

theorem stringBytes_zero (a : Word) : stringBytes bytes s 0 a = [] := rfl

theorem stringBytes_succ (n : Nat) (a : Word) :
    stringBytes bytes s (n + 1) a = bytes (s.store a) ++ stringBytes bytes s n (a + 1) := by
  simp only [stringBytes, List.range_succ_eq_map, List.flatMap_cons, List.flatMap_map, addr_succ, BitVec.add_zero]

end

/-- A walk that meets no poll and no failing write: it writes the words' bytes up to the terminator. -/
theorem stringWalk_writes {ends : Word → Bool} {bytes : Word → List Byte} {n : Nat} {a : Word} {s : State}
    (hplain : ∀ k ≤ n, a + BitVec.ofNat 16 k ≠ s.cfg.kbsrAddr)
    (hgo : ∀ k < n, ends (s.store (a + BitVec.ofNat 16 k)) = false)
    (hend : ends (s.store (a + BitVec.ofNat 16 n)) = true)
    (hacc : AcceptsWrites (stringBytes bytes s n a).length s.env) :
    stringWalk ends bytes (n + 1) a s = .finished (s.withConsole (s.out ++ stringBytes bytes s n a)
      (s.env.afterWrites (stringBytes bytes s n a).length)) := by
  induction n generalizing a s with
  | zero =>
    have h0 : memRead a s = (s.store a, s) := memRead_plain (by simpa using hplain 0 le_rfl)
    rw [stringWalk_of_ends (by rw [h0]; simpa using hend), h0, stringBytes_zero, List.append_nil]
    rfl
  | succ n ih =>
    have h0 : memRead a s = (s.store a, s) := memRead_plain (by simpa using hplain 0 (Nat.zero_le _))
    rw [stringBytes_succ, List.length_append] at hacc ⊢
    obtain ⟨hfirst, hrest⟩ := acceptsWrites_add hacc
    have hwrite := conOutAll_accepted (bytes (s.store a)) hfirst
    have hstep := stringWalk_of_accepted (ends := ends) (bytes := bytes) (n := n + 1) (a := a) (s := s)
      (by rw [h0]; simpa using hgo 0 (Nat.zero_lt_succ n)) (by rw [h0]; exact hwrite)
    rw [hstep]
    refine (ih (fun k hk => ?_) (fun k hk => ?_) ?_ hrest).trans ?_
    · rw [addr_succ]; exact hplain (k + 1) (by omega)
    · rw [addr_succ]; exact hgo (k + 1) (by omega)
    · rw [addr_succ]; exact hend
    · rw [afterWrites_add, ← List.append_assoc]
      rfl

/-- Settles O44: each word writes one byte, so the walk's bytes are a map over its words. -/
theorem putsWritesTheString : Obligations.PutsWritesTheString := by
  intro i s n hi _ hplain hgo hend hacc
  have hbytes : stringBytes putsBytes s n (s.reg 0) =
      (List.range n).map (fun k => lowByte (s.store (s.reg 0 + BitVec.ofNat 16 k))) := List.map_eq_flatMap.symm
  have hlen : (stringBytes putsBytes s n (s.reg 0)).length = n := by rw [hbytes, List.length_map, List.length_range]
  have hwalk := stringWalk_writes (ends := putsEnds) hplain (fun k hk => putsEnds_eq_false_iff.2 (hgo k hk))
    (putsEnds_iff.2 hend) (hlen.symm ▸ hacc)
  rw [hlen, hbytes] at hwalk
  rw [exec_puts_forms hi, routinePuts]
  exact ⟨_, endOfWalk_of_terminator putsEnds_zero putsBytes_ne hwalk, withConsole_frame s _ _⟩

/-- Settles O47: the statement's bytes are those of the walk. -/
theorem putspWritesTheString : Obligations.PutspWritesTheString := by
  intro i s n word bytes hi _ hplain hword hgo hend hbytes hacc
  have hstring : bytes = stringBytes putspBytes s n (s.reg 0) := by
    rw [hbytes]
    refine List.flatMap_congr fun k hk => ?_
    rw [hword k (List.mem_range.1 hk).le]
    rfl
  have hwalk := stringWalk_writes (ends := putspEnds) (bytes := putspBytes) hplain
    (fun k hk => putspEnds_eq_false_iff.2 (hword k hk.le ▸ hgo k hk))
    (putspEnds_iff.2 (hword n le_rfl ▸ hend)) (hstring ▸ hacc)
  rw [exec_putsp_forms hi, routinePutsp, hstring]
  exact ⟨_, endOfWalk_of_terminator putspEnds_zero putspBytes_ne hwalk, withConsole_frame s _ _⟩

end Sys2Proof.Machine
end

section
/-! PROOFS for the last statement of 43_trap: which stop status an instruction leaves (R161), and so what is left where a
console call fails (R132). -/

namespace Sys2Proof.Machine

/-- What a routine, started with the word `instr`, does to the stop status. An IOError stop comes after console calls and
reads alone (D13). -/
inductive StopEffect (instr : Word) (s t : State) : Prop where
  | kept (h : t.stop = s.stop)
  | normal (h : t.stop = some .normal)
  | illegal (info : FatalInfo) (h : t.stop = some (.fatal .illegalOpcode info))
  | ioError (u : State) (hu : KeepsCore s u) (ht : t = raiseIOError instr u)

section
variable {instr : Word} {s t : State}

theorem routineGetc_stopEffect (h : routineGetc instr s = .next t) : StopEffect instr s t := by
  have hread := (KeepsCore.refl s).kbdGet
  unfold routineGetc at h
  split at h <;> rename_i hg <;> rw [hg] at hread <;> cases h
  · exact .kept hread.stop
  · exact .ioError _ hread rfl

theorem routineOut_stopEffect (h : routineOut instr s = .next t) : StopEffect instr s t := by
  have hwrite := (KeepsCore.refl s).conOut (lowByte (s.reg 0))
  rcases hc : conOut (lowByte (s.reg 0)) s with ⟨_ | _, u⟩ <;> rw [hc] at hwrite
  · rw [routineOut_of_failed hc] at h
    cases h; exact .ioError u hwrite rfl
  · rw [routineOut_of_accepted hc] at h
    cases h; exact .kept hwrite.stop

theorem endOfWalk_stopEffect {ends : Word → Bool} {bytes : Word → List Byte} {n : Nat} {a : Word}
    (h : endOfWalk instr (stringWalk ends bytes n a s) = .next t) : StopEffect instr s t := by
  cases hw : stringWalk ends bytes n a s <;> rw [hw] at h <;> cases h
  case finished => exact .kept (stringWalk_keepsCore (.refl s) (endsAs_true.2 hw)).stop
  case failed u => exact .ioError u (stringWalk_keepsCore (.refl s) (endsAs_false.2 hw)) rfl

theorem routineIn_stopEffect (h : routineIn instr s = .next t) : StopEffect instr s t := by
  have hprompt := (KeepsCore.refl s).conOutAll s.cfg.inPrompt
  rcases hp : conOutAll s.cfg.inPrompt s with ⟨_ | _, s1⟩ <;> rw [hp] at hprompt
  · rw [routineIn_of_promptFailed hp] at h
    cases h; exact .ioError s1 hprompt rfl
  have hread := hprompt.kbdGet
  rcases hg : kbdGet s1 with ⟨b | _ | _, s2⟩ <;> rw [hg] at hread
  · have hecho := hread.conOut b
    rcases he : conOut b s2 with ⟨_ | _, s3⟩ <;> rw [he] at hecho
    · rw [routineIn_of_echoFailed hp hg he] at h
      cases h; exact .ioError s3 hecho rfl
    · rw [routineIn_of_echoAccepted hp hg he] at h
      cases h; exact .kept hecho.stop
  · rw [routineIn_of_readFailed hp hg] at h
    cases h; exact .ioError s2 hread rfl
  · rw [routineIn_of_neverAnswered hp hg] at h
    cases h

theorem routineHalt_stopEffect (h : routineHalt instr s = .next t) : StopEffect instr s t := by
  have hnotice := (KeepsCore.refl s).conOutAll s.cfg.haltNotice
  rcases hn : conOutAll s.cfg.haltNotice s with ⟨_ | _, u⟩ <;> rw [hn] at hnotice
  · rw [routineHalt_of_failed hn] at h
    cases h; exact .ioError u hnotice rfl
  · rw [routineHalt_of_accepted hn] at h
    cases h; exact .normal rfl

theorem routineIllegal_stopEffect (h : routineIllegal instr s = .next t) : StopEffect instr s t := by
  cases h; exact .illegal _ rfl

theorem trapDispatch_stopEffect (h : trapDispatch instr s = .next t) : StopEffect instr s t := by
  unfold trapDispatch at h
  split at h
  · exact routineGetc_stopEffect h
  · exact routineOut_stopEffect h
  · exact endOfWalk_stopEffect h
  · exact routineIn_stopEffect h
  · exact endOfWalk_stopEffect h
  · exact routineHalt_stopEffect h
  · exact routineIllegal_stopEffect h

/-- A TRAP instruction, whether well formed or not. -/
theorem exec_stopEffect_of_vector {i : Instr} {v : Byte} (hv : i.vector = some v) (h : exec i s = .next t) :
    StopEffect (encode i) s t := by
  cases i with
  | trap => exact trapDispatch_stopEffect h
  | getc => exact routineGetc_stopEffect h
  | out => exact routineOut_stopEffect h
  | puts => exact endOfWalk_stopEffect h
  | inp => exact routineIn_stopEffect h
  | putsp => exact endOfWalk_stopEffect h
  | halt => exact routineHalt_stopEffect h
  | trapIllegal => exact routineIllegal_stopEffect h
  | _ => cases hv

/-- Every other instruction keeps the stop status, but for RTI and RES (R150, R151). -/
theorem exec_stop_of_no_vector {i : Instr} (hv : i.vector = none) (h : exec i s = .next t) :
    t.stop = s.stop ∨ ∃ info, t.stop = some (.fatal .illegalOpcode info) := by
  cases i with
  | trap | getc | out | puts | inp | putsp | halt | trapIllegal => cases hv
  | rti | res => cases h; exact .inr ⟨_, rfl⟩
  | br n z p off =>
    rw [exec_br] at h
    cases h; exact .inl rfl
  | ld | ldr => cases h; exact .inl (memRead_stop _ s)
  | ldi => cases h; exact .inl ((memRead_stop _ _).trans (memRead_stop _ s))
  | sti => cases h; exact .inl (memRead_stop _ s)
  | _ => cases h; exact .inl rfl

end

/-- R132: an IOError is the stop of a TRAP routine, with the routine's record. -/
theorem exec_ioError {i : Instr} {s t : State} {info : FatalInfo} (hs : s.stop = none) (he : exec i s = .next t)
    (ht : t.stop = some (.fatal .ioError info)) :
    ∃ v, i.vector = some v ∧ ∃ u, KeepsCore s u ∧ t = raiseIOError (encode i) u := by
  cases hv : i.vector with
  | none => obtain h | ⟨_, h⟩ := exec_stop_of_no_vector hv he <;> simp [h, hs] at ht
  | some v =>
    cases exec_stopEffect_of_vector hv he with
    | kept h => rw [ht, hs] at h; cases h
    | normal h => rw [ht] at h; cases h
    | illegal info' h => rw [ht] at h; cases h
    | ioError u hu h => exact ⟨v, rfl, u, hu, h⟩

/-- A TRAP instruction is no store. -/
theorem storeOf_of_vector {i : Instr} {v : Byte} (hv : i.vector = some v) (s : State) : storeOf s i = none := by
  cases i with
  | st | sti | str => cases hv
  | _ => rfl

/-- Settles O50: the stop is of a TRAP routine; what such a routine does to `out` and to the cells was shown with the
statements of 10_state and 20_memory. -/
theorem consoleFailureStopsAtOnce : Obligations.ConsoleFailureStopsAtOnce := by
  intro i s t info hs he ht
  obtain ⟨v, hv, u, hu, rfl⟩ := exec_ioError hs he ht
  have hstop := hu.stopsFatally hv
  obtain rfl : ioErrorInfo i s = info := by
    obtain ⟨-, hst, -⟩ := hstop
    cases hst.symm.trans ht
    rfl
  have hout := ((keptByOps_advances s).exec (.of_eq rfl rfl rfl rfl) he).out
  refine ⟨rfl, hstop, hout, fun a ha => ?_⟩
  obtain ⟨hkbsr, hkbdr⟩ : a ≠ s.cfg.kbsrAddr ∧ a ≠ s.cfg.kbdrAddr := by simpa using ha
  exact (exec_keepsCell_of_no_store hkbsr hkbdr (storeOf_of_vector hv s) he).store

end Sys2Proof.Machine
end

section
/-! PROOFS for the statements of 44_reserved: RTI, RES and a TRAP with an unrecognised vector have one meaning, the
fatal stop IllegalOpcode, and that stop changes the run state and the stop status only (R150 to R152). -/

namespace Sys2Proof.Machine

/-! ### The opcode of an illegal instruction's word -/

theorem opcode_encode_rti (x : BitVec 12) : (encode (.rti x)).extractLsb' 12 4 = 0b1000#4 := by
  rw [encode, BitVec.extractLsb'_append_eq_of_le (by decide), BitVec.extractLsb'_eq_self]

theorem opcode_encode_res (x : BitVec 12) : (encode (.res x)).extractLsb' 12 4 = 0b1101#4 := by
  rw [encode, BitVec.extractLsb'_append_eq_of_le (by decide), BitVec.extractLsb'_eq_self]

theorem opcode_encode_trap (x : BitVec 4) (v : Byte) : (encode (.trap x v)).extractLsb' 12 4 = 0b1111#4 := by
  rw [encode, BitVec.extractLsb'_append_eq_of_le (by decide), BitVec.extractLsb'_append_eq_of_le (by decide),
    BitVec.extractLsb'_eq_self]

theorem opcode_encode_trapIllegal (v : Byte) : (encode (.trapIllegal v)).extractLsb' 12 4 = 0b1111#4 :=
  opcode_encode_trap 0 v

/-! ### What the illegal instructions do -/

theorem recognisedVector_eq_false_iff (v : Byte) : recognisedVector v = false ↔ v.toNat < 0x20 ∨ 0x25 < v.toNat := by
  rw [← Bool.not_eq_true, recognisedVector_iff]
  omega

theorem trapDispatch_of_unrecognised {instr : Word} (hv : recognisedVector (lowByte instr) = false) (s : State) :
    trapDispatch instr s = routineIllegal instr s := by
  rw [recognisedVector_eq_false_iff] at hv
  unfold trapDispatch
  split
  case h_7 => rfl
  all_goals omega

theorem routineIllegal_encode {i : Instr} {v : Byte} (hv : i.vector = some v) (s : State) :
    routineIllegal (encode i) s = .next (raiseIllegalOpcode (encode i) (some v) s) := by
  rw [routineIllegal, vector_eq_lowByte hv]

/-- R72: the illegal instructions have one meaning, whether well formed or not. -/
theorem exec_illegal {i : Instr} (h : i.illegal = true) (s : State) :
    exec i s = .next (raiseIllegalOpcode (encode i) i.vector s) := by
  cases i with
  | rti | res => rfl
  | trapIllegal v => exact routineIllegal_encode rfl s
  | trap x v =>
    have hv : recognisedVector (lowByte (encode (.trap x v))) = false := by
      rw [lowByte_encode_trap]
      simpa [Instr.illegal] using h
    exact (trapDispatch_of_unrecognised hv s).trans (routineIllegal_encode rfl s)
  | _ => cases h

/-- R162: what the stop of an illegal instruction records, and its frame. -/
theorem exec_illegal_completes {i : Instr} {op : BitVec 4} {v : Option Byte} (h : i.illegal = true)
    (hop : (encode i).extractLsb' 12 4 = op) (hv : i.vector = v) (s : State) :
    ∃ t, exec i s = .next t ∧
      StopsFatally .illegalOpcode { op := some op, vector := v, instr := encode i, addr := s.pc - 1 } s t ∧
      KeepsCellsBut [] s t ∧ KeepsConsole s t := by
  subst hop hv
  exact ⟨_, exec_illegal h s, ⟨rfl, rfl, fun _ _ => rfl, rfl, rfl, rfl⟩, fun _ _ => rfl, rfl, rfl⟩

/-- Settles O51: both rows are illegal, with the opcode of their words. -/
theorem reservedOpcodesStopTheCore : Obligations.ReservedOpcodesStopTheCore := by
  refine ⟨fun _ => decode_rti, fun _ => decode_res, ?_⟩
  rintro i op s (⟨x, rfl, rfl⟩ | ⟨x, rfl, rfl⟩)
  · exact exec_illegal_completes rfl (opcode_encode_rti x) rfl s
  · exact exec_illegal_completes rfl (opcode_encode_res x) rfl s

/-- Settles O52: the row of such a vector is illegal, and so is the general row with it. -/
theorem unrecognisedVectorStopsTheCore : Obligations.UnrecognisedVectorStopsTheCore := by
  rintro i v s (rfl | ⟨x, rfl⟩) hv
  · exact exec_illegal_completes rfl (opcode_encode_trapIllegal v) rfl s
  · have hill : (Instr.trap x v).illegal = true := by
      rw [Instr.illegal, (recognisedVector_eq_false_iff v).2 hv, Bool.not_false]
    exact exec_illegal_completes hill (opcode_encode_trap x v) rfl s

end Sys2Proof.Machine
end

section
/-! PROOFS for the statements of 60_exceptions: the keyboard poll (R171), where a running core is stuck (I9, I10), what
stops it (R161, R162), and what a step leaves that fetches an illegal word (R164, R165) or the polled status word
(I18). -/

namespace Sys2Proof.Machine

/-! ### The keyboard poll (R171) -/

/-- Settles O11: where the environment lets the poll have a byte, `takeByte` answers it, by what the stream is. -/
theorem pollTakesTheFrontByteOrNone : Obligations.PollTakesTheFrontByteOrNone := by
  intro s
  cases h : s.env.pollReady.answer
  · rw [kbdPoll_notReady s h]
    exact ⟨_, rfl, rfl, rfl, rfl, fun _ => ⟨rfl, rfl⟩, nofun⟩
  · rw [kbdPoll_ready s h]
    rcases takeByte_cases { s.env with pollReady := s.env.pollReady.advance } with
      ⟨b, rest, hin, ht⟩ | ⟨b, hin, htail, ht⟩ | ⟨hin, htail, ht⟩ <;> rw [ht] <;>
      refine ⟨_, rfl, rfl, rfl, rfl, nofun, fun _ => ?_⟩
    · dsimp only at hin
      simp [hin]
    · dsimp only at hin htail
      simp [hin, htail]
    · dsimp only at hin htail
      simp [hin, htail]

/-! ### Where a running core is stuck (I9, I10) -/

section
variable (instr : Word) (s : State) (r : Refusal)

theorem routineGetc_ne_refused : routineGetc instr s ≠ .refused r := by
  unfold routineGetc
  split <;> nofun

theorem routineIn_ne_refused : routineIn instr s ≠ .refused r := by
  unfold routineIn
  split
  · nofun
  · split
    · nofun
    · nofun
    · split <;> nofun

theorem endOfWalk_ne_refused (w : Walk) : endOfWalk instr w ≠ .refused r := by
  cases w <;> nofun

theorem routineHalt_ne_refused : routineHalt instr s ≠ .refused r := by
  unfold routineHalt
  split <;> nofun

theorem trapDispatch_ne_refused : trapDispatch instr s ≠ .refused r := by
  unfold trapDispatch
  split
  · exact routineGetc_ne_refused instr s r
  · nofun
  · exact endOfWalk_ne_refused instr r _
  · exact routineIn_ne_refused instr s r
  · exact endOfWalk_ne_refused instr r _
  · exact routineHalt_ne_refused instr s r
  · nofun

/-- Every instruction has a meaning. -/
theorem exec_ne_refused (i : Instr) : exec i s ≠ .refused r := by
  cases i with
  | trap => exact trapDispatch_ne_refused _ s r
  | getc => exact routineGetc_ne_refused _ s r
  | puts | putsp => exact endOfWalk_ne_refused _ r _
  | inp => exact routineIn_ne_refused _ s r
  | halt => exact routineHalt_ne_refused _ s r
  | _ => nofun

end

/-- Settles O19: a running core's step is the meaning of the word it fetches, and `exec_fault` names the routines that
can be stuck. -/
theorem runningStepIsStuckOnlyInARoutine : Obligations.RunningStepIsStuckOnlyInARoutine := by
  intro s hr
  rw [step_running hr]
  exact ⟨fun r => exec_ne_refused _ r _, fun _ => exec_fault⟩

/-! ### What stops a running core (R161, R162) -/

/-- How a TRAP routine with a recognised vector, started with the word `instr`, leaves the run state. (`StopEffect` does
not tell: it speaks of the stop status only, and a RUNNING state outside the invariant may hold one already.) -/
inductive RunEffect (instr : Word) (s t : State) : Prop where
  | kept (h : t.run = s.run)
  | halted (hv : lowByte instr = 0x25) (h : t.stop = some .normal)
  | ioError (u : State) (hu : KeepsCore s u) (ht : t = raiseIOError instr u)

section
variable {instr : Word} {s t : State}

theorem routineGetc_runEffect (h : routineGetc instr s = .next t) : RunEffect instr s t := by
  have hread := (KeepsCore.refl s).kbdGet
  rcases hg : kbdGet s with ⟨b | _ | _, u⟩ <;> rw [hg] at hread
  · rw [routineGetc_of_byte hg] at h
    cases h; exact .kept hread.run.1
  · rw [routineGetc_of_failed hg] at h
    cases h; exact .ioError u hread rfl
  · rw [routineGetc_of_neverAnswered hg] at h
    cases h

theorem routineOut_runEffect (h : routineOut instr s = .next t) : RunEffect instr s t := by
  have hwrite := (KeepsCore.refl s).conOut (lowByte (s.reg 0))
  rcases hc : conOut (lowByte (s.reg 0)) s with ⟨_ | _, u⟩ <;> rw [hc] at hwrite
  · rw [routineOut_of_failed hc] at h
    cases h; exact .ioError u hwrite rfl
  · rw [routineOut_of_accepted hc] at h
    cases h; exact .kept hwrite.run.1

theorem endOfWalk_runEffect {ends : Word → Bool} {bytes : Word → List Byte} {n : Nat} {a : Word}
    (h : endOfWalk instr (stringWalk ends bytes n a s) = .next t) : RunEffect instr s t := by
  cases hw : stringWalk ends bytes n a s <;> rw [hw] at h <;> cases h
  case finished => exact .kept (stringWalk_keepsCore (.refl s) (endsAs_true.2 hw)).run.1
  case failed u => exact .ioError u (stringWalk_keepsCore (.refl s) (endsAs_false.2 hw)) rfl

theorem routineIn_runEffect (h : routineIn instr s = .next t) : RunEffect instr s t := by
  have hprompt := (KeepsCore.refl s).conOutAll s.cfg.inPrompt
  rcases hp : conOutAll s.cfg.inPrompt s with ⟨_ | _, s1⟩ <;> rw [hp] at hprompt
  · rw [routineIn_of_promptFailed hp] at h
    cases h; exact .ioError s1 hprompt rfl
  have hread := hprompt.kbdGet
  rcases hg : kbdGet s1 with ⟨b | _ | _, s2⟩ <;> rw [hg] at hread
  · have hecho := hread.conOut b
    rcases he : conOut b s2 with ⟨_ | _, s3⟩ <;> rw [he] at hecho
    · rw [routineIn_of_echoFailed hp hg he] at h
      cases h; exact .ioError s3 hecho rfl
    · rw [routineIn_of_echoAccepted hp hg he] at h
      cases h; exact .kept hecho.run.1
  · rw [routineIn_of_readFailed hp hg] at h
    cases h; exact .ioError s2 hread rfl
  · rw [routineIn_of_neverAnswered hp hg] at h
    cases h

theorem routineHalt_runEffect (hv : lowByte instr = 0x25) (h : routineHalt instr s = .next t) :
    RunEffect instr s t := by
  have hnotice := (KeepsCore.refl s).conOutAll s.cfg.haltNotice
  rcases hn : conOutAll s.cfg.haltNotice s with ⟨_ | _, u⟩ <;> rw [hn] at hnotice
  · rw [routineHalt_of_failed hn] at h
    cases h; exact .ioError u hnotice rfl
  · rw [routineHalt_of_accepted hn] at h
    cases h; exact .halted hv rfl

theorem trapDispatch_runEffect (hv : recognisedVector (lowByte instr) = true) (h : trapDispatch instr s = .next t) :
    RunEffect instr s t := by
  rw [recognisedVector_iff] at hv
  unfold trapDispatch at h
  split at h
  · exact routineGetc_runEffect h
  · exact routineOut_runEffect h
  · exact endOfWalk_runEffect h
  · exact routineIn_runEffect h
  · exact endOfWalk_runEffect h
  case h_6 h25 => exact routineHalt_runEffect (BitVec.eq_of_toNat_eq h25) h
  case h_7 => simp only [imp_false] at *; omega

/-- An instruction that is neither a TRAP nor illegal keeps the run state. -/
theorem exec_run_of_no_vector {i : Instr} (hv : i.vector = none) (hi : i.illegal = false) (h : exec i s = .next t) :
    t.run = s.run := by
  cases i with
  | trap | getc | out | puts | inp | putsp | halt | trapIllegal => cases hv
  | rti | res => cases hi
  | br n z p off =>
    rw [exec_br] at h
    cases h; rfl
  | ld | ldr => cases h; exact memRead_run _ s
  | ldi => cases h; exact (memRead_run _ _).trans (memRead_run _ s)
  | sti => cases h; exact memRead_run _ s
  | _ => cases h; rfl

end

/-- Settles O53: an illegal instruction has its one meaning, a TRAP with a recognised vector is the dispatch on it, and
no other instruction stops. -/
theorem causesOfAStop : Obligations.CausesOfAStop := by
  intro i s t hw hr he ht
  have hne : t.run ≠ s.run := by rw [hr, ht]; nofun
  cases hi : i.illegal with
  | true =>
    rw [exec_illegal hi] at he
    cases he
    exact .inr (.inl ⟨rfl, rfl⟩)
  | false =>
    cases hv : i.vector with
    | none => exact absurd (exec_run_of_no_vector hv hi he) hne
    | some v =>
      have hlow := vector_eq_lowByte hv
      have hrec : recognisedVector (lowByte (encode i)) = true := by
        rw [hlow]
        simpa [hi] using illegal_eq_of_vector hv hw
      rw [exec_trapDispatch hv hw] at he
      cases trapDispatch_runEffect hrec he with
      | kept h => exact absurd h hne
      | halted h25 h => exact .inl ⟨by rw [← hlow, h25], h⟩
      | ioError u hu hu' =>
        obtain ⟨-, hstop, -⟩ := hu.stopsFatally hv
        exact .inr (.inr ⟨rfl, rfl, hu' ▸ hstop⟩)

/-! ### Steps that fetch an illegal word or the polled status word (R164, R165, I18) -/

/-- R164: a step that fetches an illegal word is the fetch and the stop, which records the address fetched from. -/
theorem step_illegal {s u : State} {w : Word} (hr : s.run = .running) (hf : fetch s = (w, u))
    (hi : (decode w).illegal = true) :
    step s = .next (raiseFatal .illegalOpcode
      { op := some (w.extractLsb' 12 4), vector := (decode w).vector, instr := w, addr := s.pc } u) := by
  have hpc : u.pc - 1 = s.pc := by
    have := fetch_pc s
    rw [hf] at this
    rw [this, BitVec.add_sub_cancel]
  rw [step_running hr, hf, exec_illegal hi, encode_decode, raiseIllegalOpcode, hpc]

/-- The zero word is a branch never taken (R197). -/
theorem exec_decode_zero (s : State) : exec (decode 0x0000) s = .next s := rfl

/-- Settles O54: away from KBSR_ADDR the fetch changes PC alone, and the stop the run state and the stop status. -/
theorem illegalWordStopIsPrecise : Obligations.IllegalWordStopIsPrecise := by
  intro s hr hpc hi
  have hf : fetch s = (s.store s.pc, s.setPc (s.pc + 1)) := by rw [fetch_eq, memRead_plain hpc]
  exact ⟨_, step_illegal hr hf hi, rfl, rfl, rfl, fun _ _ => rfl, rfl, fun _ _ => rfl, ⟨rfl, rfl⟩, rfl⟩

/-- Settles O55: the fetch is a read of KBSR (O12), and each of its two answers is a fixed word. -/
theorem fetchAtKbsrPolls : Obligations.FetchAtKbsrPolls := by
  intro s hr hw hpc
  obtain ⟨hbyte, hnone, -⟩ := memReadPollsAtKbsrOnly s hw
  refine ⟨fun b hb => ?_, fun hn => ?_⟩
  · obtain ⟨u, hread, hkbsr, hkbdr, hcells, hregs, -, hcond, hout, henv, -, -, hcfg⟩ := hbyte b hb
    have hf : fetch s = (0x8000, u.setPc (s.pc + 1)) := by rw [fetch_eq, hpc, hread]
    exact ⟨_, step_illegal hr hf (by decide), rfl, rfl, rfl, hkbsr, hkbdr, hcells, hregs, hcond, hout, henv, hcfg⟩
  · obtain ⟨u, hread, hkbsr, hcells, hregs, -, hcond, hout, henv, hrun⟩ := hnone hn
    have hstep : step s = .next (u.setPc (s.pc + 1)) := by
      rw [step_running hr, fetch_eq, hpc, hread, exec_decode_zero]
    exact ⟨_, hstep, rfl, hrun, hregs, hcond, hkbsr, hcells, hout, henv⟩

end Sys2Proof.Machine
end

section
/-! PROOFS for the statements of 70_reset_and_hazards: the state a run starts from (R190), loading an image (R193), the
format of image files (R194, R195), and launches (R196). -/

namespace Sys2Proof.Machine

/-! ### Loading images (R193) -/

@[simp] theorem loadWords_nil (a : Nat) (m : Memory) : loadWords a [] m = m := rfl

theorem loadWords_cons (a : Nat) (w : Word) (ws : List Word) (m : Memory) :
    loadWords a (w :: ws) m = loadWords (a + 1) ws (if a ≤ 0xFFFF then m.write a w else m) := rfl

/-- Inside the address space, whether a word is stored or dropped depends on its own address only. -/
theorem read_storeOrDrop (m : Memory) (a : Nat) (w : Word) {b : Nat} (hb : b ≤ 0xFFFF) :
    (if a ≤ 0xFFFF then m.write a w else m).read b = if b = a then w else m.read b := by
  by_cases ha : a ≤ 0xFFFF
  · rw [if_pos ha, read_write]
  · rw [if_neg ha, if_neg (show b ≠ a by omega)]

/-- The words go from address `a` up. -/
theorem read_loadWords (a : Nat) (ws : List Word) (m : Memory) {b : Nat} (hb : b ≤ 0xFFFF) :
    (loadWords a ws m).read b = if a ≤ b then (ws[b - a]?).getD (m.read b) else m.read b := by
  induction ws generalizing a m with
  | nil => simp
  | cons w ws ih =>
    rw [loadWords_cons, ih, read_storeOrDrop m a w hb]
    rcases lt_trichotomy b a with hlt | rfl | hgt
    · rw [if_neg (show ¬a + 1 ≤ b by omega), if_neg hlt.ne, if_neg hlt.not_ge]
    · rw [if_neg (show ¬b + 1 ≤ b by omega), if_pos rfl, if_pos le_rfl, Nat.sub_self, List.getElem?_cons_zero,
        Option.getD_some]
    · rw [if_pos (show a + 1 ≤ b from hgt), if_neg hgt.ne', if_pos hgt.le,
        show b - a = (b - (a + 1)) + 1 by omega, List.getElem?_cons_succ]

@[simp] theorem loadImages_nil : loadImages [] = [] := rfl

theorem loadImages_concat (is : List Image) (i : Image) : loadImages (is ++ [i]) = loadImage (loadImages is) i :=
  List.foldl_concat loadImage [] i is

theorem loadImages_wf (is : List Image) : (loadImages is).wf := foldl_loadImage_wf is reset_mem_wf

/-- Settles O57: an image is its words loaded from its origin, and the images are a fold in order. -/
theorem imageGoesFromItsOriginUp : Obligations.ImageGoesFromItsOriginUp :=
  ⟨fun m i _ ha => read_loadWords i.origin.toNat i.words m ha, loadImages_nil, loadImages_concat⟩

/-! ### The start of a run (R190) -/

/-- Settles O10: memory is what the images leave, and the core runs without a stop status. -/
theorem startMeetsInvariant : Obligations.StartMeetsInvariant :=
  fun _ _ images _ hcfg => ⟨loadImages_wf images, hcfg, nofun, nofun⟩

/-- Where memory lists no cell, every cell reads as zero. -/
theorem startState_store_of_no_image (cfg : Config) (gpr : Vector Word 8) (env : Env) (a : Word) :
    (startState cfg gpr [] env).store a = 0x0000 := rfl

/-- Settles O56: each field is as `startState` sets it, and the first fetch is a plain read where PC is not KBSR_ADDR. -/
theorem startOfARun : Obligations.StartOfARun := by
  rintro cfg gpr images env s rfl
  refine ⟨rfl, rfl, fun _ => rfl, rfl, rfl, rfl, rfl, fun _ => rfl, ?_, fun hne => ?_⟩
  · rintro rfl a
    exact startState_store_of_no_image cfg gpr env a
  · have hpc : (startState cfg gpr images env).pc ≠ (startState cfg gpr images env).cfg.kbsrAddr := hne.symm
    rw [fetch_eq, memRead_plain hpc]
    rfl

/-! ### Image files (R194, R195) -/

/-- A word is its high byte before its low byte. -/
theorem highByte_append_lowByte (w : Word) : (highByte w ++ lowByte w : Word) = w :=
  BitVec.extractLsb'_append_extractLsb' (w := 8) (len := 8)

/-- The words of a file are read back from their bytes. -/
theorem fileWords_bytes (ws : List Word) : fileWords (ws.flatMap (fun w => [highByte w, lowByte w])) = some ws := by
  induction ws with
  | nil => rfl
  | cons w ws ih =>
    rw [List.flatMap_cons, List.cons_append, List.cons_append, List.nil_append, fileWords, ih,
      highByte_append_lowByte, Option.map_some]

theorem parseImage_of_words {file : List Byte} {origin : Word} {ws : List Word}
    (h : fileWords file = some (origin :: ws)) : parseImage file = some ⟨origin, ws⟩ := by
  rw [parseImage, h]

/-- Settles O58: the words of the file are the origin and the words of the image. -/
theorem imageFileIsBigEndian : Obligations.ImageFileIsBigEndian :=
  fun origin ws => parseImage_of_words (fileWords_bytes (origin :: ws))

theorem fileWords_eq_none_iff (file : List Byte) : fileWords file = none ↔ file.length % 2 = 1 := by
  induction file using fileWords.induct with
  | case1 => simp [fileWords]
  | case2 => simp [fileWords]
  | case3 hi lo rest ih =>
    rw [fileWords, Option.map_eq_none_iff, ih, List.length_cons, List.length_cons]
    omega

theorem fileWords_eq_nil_iff (file : List Byte) : fileWords file = some [] ↔ file = [] := by
  cases file using fileWords.fun_cases with
  | case1 => simp [fileWords]
  | case2 => simp [fileWords]
  | case3 hi lo rest => simp [fileWords]

/-- A file is no image where its bytes make no words, or no word for the origin. -/
theorem parseImage_eq_none_iff (file : List Byte) :
    parseImage file = none ↔ fileWords file = none ∨ fileWords file = some [] := by
  rcases h : fileWords file with _ | _ | ⟨origin, ws⟩ <;> simp [parseImage, h]

/-- Settles O59: an odd byte count makes no words, and only the empty file has an even count below 2. -/
theorem otherFilesAreLoadErrors : Obligations.OtherFilesAreLoadErrors := by
  intro file
  rw [parseImage_eq_none_iff, fileWords_eq_none_iff, fileWords_eq_nil_iff, ← List.length_eq_zero_iff]
  omega

/-! ### Launches (R196) -/

/-- One file that gives no image leaves no list of images. -/
theorem mapM_eq_none_of_mem {α β : Type} {f : α → Option β} {l : List α} {a : α} (ha : a ∈ l) (hf : f a = none) :
    l.mapM f = none := by
  induction ha with
  | head => simp [hf]
  | tail b _ ih => simp [ih]

/-- Files that each give an image give the list of them, in order. -/
theorem mapM_eq_some_of_map {α β : Type} {f : α → Option β} {l : List α} {bs : List β} (h : l.map f = bs.map some) :
    l.mapM f = some bs := by
  calc l.mapM f = (l.map f).mapM id := (List.mapM_map (g := id)).symm
    _ = bs.mapM (id ∘ some) := by rw [h, List.mapM_map]
    _ = some (bs.map id) := List.mapM_pure
    _ = some bs := by rw [List.map_id]

section
variable (cfg : Config) (gpr : Vector Word 8) (env : Env) {files : List (Option (List Byte))}

theorem launch_nil : launch cfg gpr [] env = .usageError := rfl

theorem launch_of_unreadable (h : ∃ f ∈ files, f.bind parseImage = none) :
    launch cfg gpr files env = .imageLoadError := by
  obtain ⟨f, hmem, hf⟩ := h
  obtain ⟨g, gs, rfl⟩ := List.exists_cons_of_ne_nil (List.ne_nil_of_mem hmem)
  have hmap := mapM_eq_none_of_mem (f := fun f => f.bind parseImage) hmem hf
  simp only [launch, hmap]

theorem launch_of_images {images : List Image} (hne : files ≠ [])
    (h : files.map (fun f => f.bind parseImage) = images.map some) :
    launch cfg gpr files env = .run (startState cfg gpr images env) := by
  obtain ⟨g, gs, rfl⟩ := List.exists_cons_of_ne_nil hne
  simp only [launch, mapM_eq_some_of_map h]

end

/-- Settles O60: the three cases of `launch`. -/
theorem launchRunsOrReportsTheError : Obligations.LaunchRunsOrReportsTheError :=
  fun cfg gpr env _ _ => ⟨launch_nil cfg gpr env, launch_of_unreadable cfg gpr env,
    fun _ => launch_of_images cfg gpr env (List.cons_ne_nil _ _)⟩

end Sys2Proof.Machine
end
